-- ==== Sys2Proof/Word.lean ====
section
/-! DEFINITION. The machine's word, a console byte and a register's number (spec 00_scope.md R8, R10; 10_state.md R30). -/

namespace Sys2Proof

/-- The 16-bit word, the machine's native size: registers, pc, addresses and memory contents (R8, R10). -/
abbrev Word := BitVec 16

/-- An 8-bit value: one console character, one image byte, a trap vector (R22, R109). -/
abbrev Byte := BitVec 8

/-- A general register R0 .. R7, named by its 3-bit index; none is out of range (R30, R105). -/
abbrev Reg := Fin 8

end Sys2Proof
end

