-- ==== Sys2Proof/Syntax.lean ====
section
/-! DEFINITION. The instructions: one constructor for every row of spec/opcode_table.json, the seven alias rows
included (log 17). Fields hold exactly the bits of spec 30_encoding.md R103, before any extension. -/

namespace Sys2Proof

inductive Instr where
  /-- ADD, register form (40_operate.md R140). -/
  | addReg (dr sr1 sr2 : Reg)
  /-- ADD, immediate form (R141). -/
  | addImm (dr sr1 : Reg) (imm5 : BitVec 5)
  /-- AND, register form (R143). -/
  | andReg (dr sr1 sr2 : Reg)
  /-- AND, immediate form (R144). -/
  | andImm (dr sr1 : Reg) (imm5 : BitVec 5)
  /-- NOT (R146). -/
  | not (dr sr : Reg)
  /-- LD (41_data_movement.md R160). -/
  | ld (dr : Reg) (off9 : BitVec 9)
  /-- LDI (R161). -/
  | ldi (dr : Reg) (off9 : BitVec 9)
  /-- LDR (R162). -/
  | ldr (dr baseR : Reg) (off6 : BitVec 6)
  /-- LEA (R163). -/
  | lea (dr : Reg) (off9 : BitVec 9)
  /-- ST (R164). -/
  | st (sr : Reg) (off9 : BitVec 9)
  /-- STI (R165). -/
  | sti (sr : Reg) (off9 : BitVec 9)
  /-- STR (R166). -/
  | str (sr baseR : Reg) (off6 : BitVec 6)
  /-- BR with its mask bits n, z, p (42_control.md R190). -/
  | br (n z p : Bool) (off9 : BitVec 9)
  /-- JMP (R192); JMP R7 is decoded as RET. -/
  | jmp (baseR : Reg)
  /-- JSR (R196). -/
  | jsr (off11 : BitVec 11)
  /-- JSRR (R197). -/
  | jsrr (baseR : Reg)
  /-- TRAP (43_trap.md R210); the vectors 0x20 .. 0x25 are decoded as the six services below. -/
  | trap (vector : Byte)
  /-- RTI, reserved (44_reserved.md R240). -/
  | rti
  /-- RES, reserved (R241). -/
  | res
  /-- RET = JMP R7 (42_control.md R193). -/
  | ret
  /-- GETC = TRAP x20 (43_trap.md R211). -/
  | getc
  /-- OUT = TRAP x21 (R212). -/
  | out
  /-- PUTS = TRAP x22 (R213). -/
  | puts
  /-- IN = TRAP x23 (R214). -/
  | inChar
  /-- PUTSP = TRAP x24 (R215). -/
  | putsp
  /-- HALT = TRAP x25 (R217). -/
  | halt
  deriving DecidableEq, Repr

end Sys2Proof
end

