-- ==== Sys2Proof/WellFormed.lean ====
section
/-! DEFINITION. Which instructions a word decodes to. Every field's range is its type's; what is left is that a word
with an alias (R116) is spelled by the alias: JMP R7 is RET, TRAP x20 .. x25 are the services (log 17). The machine gives
the other spelling its meaning all the same. -/

namespace Sys2Proof

/-- The vectors with a service of their own, 0x20 .. 0x25 (43_trap.md R210). -/
def isServiceVector (v : Byte) : Bool := 0x20 ≤ v.toNat && v.toNat ≤ 0x25

def Instr.wf : Instr → Bool
  | .addReg _ _ _ => true
  | .addImm _ _ _ => true
  | .andReg _ _ _ => true
  | .andImm _ _ _ => true
  | .not _ _ => true
  | .ld _ _ => true
  | .ldi _ _ => true
  | .ldr _ _ _ => true
  | .lea _ _ => true
  | .st _ _ => true
  | .sti _ _ => true
  | .str _ _ _ => true
  | .br _ _ _ _ => true
  | .jmp baseR => baseR != 7
  | .jsr _ => true
  | .jsrr _ => true
  | .trap v => !isServiceVector v
  | .rti => true
  | .res => true
  | .ret => true
  | .getc => true
  | .out => true
  | .puts => true
  | .inChar => true
  | .putsp => true
  | .halt => true

end Sys2Proof
end

