-- ==== Sys2Proof/Decode.lean ====
section
/-! DEFINITION. From an instruction word to an instruction and back (spec 30_encoding.md R101 to R112). Decoding is
total: no word is illegal (R112), so nothing is rejected. The opcode values and field positions are the spec's own
choices D1 and D2 (log 1); the ignored bits are ignored (R111, D21; log 16). -/

namespace Sys2Proof

/-- The sixteen opcodes of R102. -/
inductive Opcode where
  | br | add | ld | st | jsr | and | ldr | str | rti | not | ldi | sti | jmp | res | lea | trap
  deriving DecidableEq, Repr

/-- The opcode map of R102, the one place where the values stand for encoding. -/
def Opcode.code : Opcode → BitVec 4
  | .br   => 0x0
  | .add  => 0x1
  | .ld   => 0x2
  | .st   => 0x3
  | .jsr  => 0x4
  | .and  => 0x5
  | .ldr  => 0x6
  | .str  => 0x7
  | .rti  => 0x8
  | .not  => 0x9
  | .ldi  => 0xA
  | .sti  => 0xB
  | .jmp  => 0xC
  | .res  => 0xD
  | .lea  => 0xE
  | .trap => 0xF

/-- The opcode a 4-bit code selects (R102); every code has one, and the last arm's only code is 0xF
(Laws.Opcode.code_ofCode). -/
def Opcode.ofCode (c : BitVec 4) : Opcode :=
  match c with
  | 0x0#4 => .br
  | 0x1#4 => .add
  | 0x2#4 => .ld
  | 0x3#4 => .st
  | 0x4#4 => .jsr
  | 0x5#4 => .and
  | 0x6#4 => .ldr
  | 0x7#4 => .str
  | 0x8#4 => .rti
  | 0x9#4 => .not
  | 0xA#4 => .ldi
  | 0xB#4 => .sti
  | 0xC#4 => .jmp
  | 0xD#4 => .res
  | 0xE#4 => .lea
  | _ => .trap

/-- instr[15:12] (R102). -/
def opcodeField (w : Word) : BitVec 4 := w.extractLsb' 12 4

/-- The register field whose lowest bit is `lo` (R105). -/
def regField (lo : Nat) (w : Word) : Reg := (w.extractLsb' lo 3).toFin

/-- instr[11:9]: DR, or SR of a store (R105). -/
def fieldDr (w : Word) : Reg := regField 9 w

/-- instr[8:6]: SR1, NOT's SR, BaseR (R105). -/
def fieldSr1 (w : Word) : Reg := regField 6 w

/-- instr[2:0]: SR2 (R105). -/
def fieldSr2 (w : Word) : Reg := regField 0 w

/-- instr[4:0] (R106). -/
def fieldImm5 (w : Word) : BitVec 5 := w.extractLsb' 0 5

/-- instr[5:0] (R107). -/
def fieldOff6 (w : Word) : BitVec 6 := w.extractLsb' 0 6

/-- instr[8:0] (R107). -/
def fieldOff9 (w : Word) : BitVec 9 := w.extractLsb' 0 9

/-- instr[10:0] (R107). -/
def fieldOff11 (w : Word) : BitVec 11 := w.extractLsb' 0 11

/-- instr[7:0] (R109). -/
def fieldVector (w : Word) : Byte := w.extractLsb' 0 8

/-- JMP, spelled RET when BaseR is R7 (R116, R193). -/
def decodeJmp (baseR : Reg) : Instr := if baseR = 7 then .ret else .jmp baseR

/-- TRAP, spelled by its service when the vector has one (R116, R210). -/
def decodeTrap (v : Byte) : Instr :=
  if v = 0x20 then .getc
  else if v = 0x21 then .out
  else if v = 0x22 then .puts
  else if v = 0x23 then .inChar
  else if v = 0x24 then .putsp
  else if v = 0x25 then .halt
  else .trap v

/-- The instruction a word is (R102, R103, R110). -/
def decode (w : Word) : Instr :=
  match Opcode.ofCode (opcodeField w) with
  | .br   => .br (w.getLsbD 11) (w.getLsbD 10) (w.getLsbD 9) (fieldOff9 w)
  | .add  => if w.getLsbD 5 then .addImm (fieldDr w) (fieldSr1 w) (fieldImm5 w)
             else .addReg (fieldDr w) (fieldSr1 w) (fieldSr2 w)
  | .ld   => .ld (fieldDr w) (fieldOff9 w)
  | .st   => .st (fieldDr w) (fieldOff9 w)
  | .jsr  => if w.getLsbD 11 then .jsr (fieldOff11 w) else .jsrr (fieldSr1 w)
  | .and  => if w.getLsbD 5 then .andImm (fieldDr w) (fieldSr1 w) (fieldImm5 w)
             else .andReg (fieldDr w) (fieldSr1 w) (fieldSr2 w)
  | .ldr  => .ldr (fieldDr w) (fieldSr1 w) (fieldOff6 w)
  | .str  => .str (fieldDr w) (fieldSr1 w) (fieldOff6 w)
  | .rti  => .rti
  | .not  => .not (fieldDr w) (fieldSr1 w)
  | .ldi  => .ldi (fieldDr w) (fieldOff9 w)
  | .sti  => .sti (fieldDr w) (fieldOff9 w)
  | .jmp  => decodeJmp (fieldSr1 w)
  | .res  => .res
  | .lea  => .lea (fieldDr w) (fieldOff9 w)
  | .trap => decodeTrap (fieldVector w)

/-- The decoder on a word given as a number, numbered as spec/opcode_table.json numbers its bits: an instruction is one
16-bit word (R101), so a number that does not fit one is none. -/
def decodeTableWord (nbits w : Nat) : Option Instr :=
  if nbits ≤ 16 ∧ w < 2 ^ 16 then some (decode (BitVec.ofNat 16 w)) else none

/-- The opcode of an instruction (R102). -/
def Instr.opcode : Instr → Opcode
  | .addReg _ _ _ => .add
  | .addImm _ _ _ => .add
  | .andReg _ _ _ => .and
  | .andImm _ _ _ => .and
  | .not _ _ => .not
  | .ld _ _ => .ld
  | .ldi _ _ => .ldi
  | .ldr _ _ _ => .ldr
  | .lea _ _ => .lea
  | .st _ _ => .st
  | .sti _ _ => .sti
  | .str _ _ _ => .str
  | .br _ _ _ _ => .br
  | .jmp _ => .jmp
  | .jsr _ => .jsr
  | .jsrr _ => .jsr
  | .trap _ => .trap
  | .rti => .rti
  | .res => .res
  | .ret => .jmp
  | .getc => .trap
  | .out => .trap
  | .puts => .trap
  | .inChar => .trap
  | .putsp => .trap
  | .halt => .trap

/-- A register as the 3 bits that name it (R105). -/
def regBits (r : Reg) : BitVec 3 := BitVec.ofFin r

/-- Bits 11:0 of an instruction's word (R103). Ignored bits are written as the LC-3 assembler writes them: zero, and
111111 for NOT (R111; log 16). -/
def encodeOperands : Instr → BitVec 12
  | .addReg dr sr1 sr2 => (regBits dr ++ regBits sr1 ++ 0b0#1 ++ 0b00#2 ++ regBits sr2 : BitVec (3 + 3 + 1 + 2 + 3))
  | .addImm dr sr1 imm5 => (regBits dr ++ regBits sr1 ++ 0b1#1 ++ imm5 : BitVec (3 + 3 + 1 + 5))
  | .andReg dr sr1 sr2 => (regBits dr ++ regBits sr1 ++ 0b0#1 ++ 0b00#2 ++ regBits sr2 : BitVec (3 + 3 + 1 + 2 + 3))
  | .andImm dr sr1 imm5 => (regBits dr ++ regBits sr1 ++ 0b1#1 ++ imm5 : BitVec (3 + 3 + 1 + 5))
  | .not dr sr => (regBits dr ++ regBits sr ++ 0b111111#6 : BitVec (3 + 3 + 6))
  | .ld dr off9 => (regBits dr ++ off9 : BitVec (3 + 9))
  | .ldi dr off9 => (regBits dr ++ off9 : BitVec (3 + 9))
  | .ldr dr baseR off6 => (regBits dr ++ regBits baseR ++ off6 : BitVec (3 + 3 + 6))
  | .lea dr off9 => (regBits dr ++ off9 : BitVec (3 + 9))
  | .st sr off9 => (regBits sr ++ off9 : BitVec (3 + 9))
  | .sti sr off9 => (regBits sr ++ off9 : BitVec (3 + 9))
  | .str sr baseR off6 => (regBits sr ++ regBits baseR ++ off6 : BitVec (3 + 3 + 6))
  | .br n z p off9 => (BitVec.ofBool n ++ BitVec.ofBool z ++ BitVec.ofBool p ++ off9 : BitVec (1 + 1 + 1 + 9))
  | .jmp baseR => (0b000#3 ++ regBits baseR ++ 0b000000#6 : BitVec (3 + 3 + 6))
  | .jsr off11 => (0b1#1 ++ off11 : BitVec (1 + 11))
  | .jsrr baseR => (0b0#1 ++ 0b00#2 ++ regBits baseR ++ 0b000000#6 : BitVec (1 + 2 + 3 + 6))
  | .trap v => (0x0#4 ++ v : BitVec (4 + 8))
  | .rti => 0x000#12
  | .res => 0x000#12
  | .ret => (0b000#3 ++ 0b111#3 ++ 0b000000#6 : BitVec (3 + 3 + 6))
  | .getc => (0x0#4 ++ 0x20#8 : BitVec (4 + 8))
  | .out => (0x0#4 ++ 0x21#8 : BitVec (4 + 8))
  | .puts => (0x0#4 ++ 0x22#8 : BitVec (4 + 8))
  | .inChar => (0x0#4 ++ 0x23#8 : BitVec (4 + 8))
  | .putsp => (0x0#4 ++ 0x24#8 : BitVec (4 + 8))
  | .halt => (0x0#4 ++ 0x25#8 : BitVec (4 + 8))

/-- The word of an instruction: its opcode in bits 15:12 and its operands below (R102, R103). -/
def encode (i : Instr) : Word := (i.opcode.code ++ encodeOperands i : BitVec (4 + 12))

/-- The bits of a word that its instruction's format uses; the others are ignored (R111). -/
def usedBits : Instr → Word
  | .addReg _ _ _ => 0xFFE7
  | .addImm _ _ _ => 0xFFFF
  | .andReg _ _ _ => 0xFFE7
  | .andImm _ _ _ => 0xFFFF
  | .not _ _ => 0xFFC0
  | .ld _ _ => 0xFFFF
  | .ldi _ _ => 0xFFFF
  | .ldr _ _ _ => 0xFFFF
  | .lea _ _ => 0xFFFF
  | .st _ _ => 0xFFFF
  | .sti _ _ => 0xFFFF
  | .str _ _ _ => 0xFFFF
  | .br _ _ _ _ => 0xFFFF
  | .jmp _ => 0xF1C0
  | .jsr _ => 0xFFFF
  | .jsrr _ => 0xF9C0
  | .trap _ => 0xF0FF
  | .rti => 0xF000
  | .res => 0xF000
  | .ret => 0xF1C0
  | .getc => 0xF0FF
  | .out => 0xF0FF
  | .puts => 0xF0FF
  | .inChar => 0xF0FF
  | .putsp => 0xF0FF
  | .halt => 0xF0FF

end Sys2Proof
end

