-- ==== Sys2Proof/Config.lean ====
section
/-! DEFINITION. The parameters of the machine (spec 00_scope.md R8): the values the spec fixes or decides, and the two
byte strings it leaves OPEN, which are constants without a body. -/

namespace Sys2Proof

/-- RESERVED_POLICY, what the two reserved opcodes do (44_reserved.md R242). -/
inductive ReservedPolicy where
  | noOp
  | abort
  deriving DecidableEq, Repr

/-- KBSR_ADDR, the keyboard-status register's address (20_memory.md R65, D4; log 3, unsafe if the repository differs). -/
def Config.kbsrAddr : Word := 0xFE00

/-- KBDR_ADDR, the keyboard-data register's address (20_memory.md R65, D4; log 3, unsafe if the repository differs). -/
def Config.kbdrAddr : Word := 0xFE02

/-- This hardware's RESERVED_POLICY (R8, R242, D8, C3; log 6, unsafe for claims about what follows a reserved word). -/
def Config.reservedPolicy : ReservedPolicy := .noOp

/-- HALT_NOTICE, OPEN in R8 (D17): a free byte string; a claim holds whatever it is (log 11, safe). -/
opaque Config.haltNotice : List Byte

/-- IN_PROMPT, OPEN in R8 (D16): a free byte string; a claim holds whatever it is (log 11, safe). -/
opaque Config.inPrompt : List Byte

end Sys2Proof
end

