-- ==== Sys2Proof/Machine/State.lean ====
section
/-! DEFINITION. The state of the block (spec 10_state.md): (x[0..7], pc, cond, M, state), and beside it the host's side of
the console port (00_scope.md R22), which one deterministic step needs as data. All of it is plain data. -/

namespace Sys2Proof.Machine

/-- The condition register: exactly one of the three flags is set (R36, R37; log 2). -/
inductive Cond where
  | n
  | z
  | p
  deriving DecidableEq, Repr

/-- The kinds of console failure (60_exceptions.md R251). -/
inductive IoKind where
  | readError
  | endOfInput
  | writeError
  deriving DecidableEq, Repr

/-- Why a run was aborted and what is recorded beside `ia` (R251, D26). -/
inductive AbortReason where
  /-- IoFailure: its kind, the trap vector when it arose in a service, and pc when it arose. -/
  | ioFailure (kind : IoKind) (vector : Option Byte) (pc : Word)
  /-- UnimplementedOpcode: never raised, since every opcode has a handler (R253). -/
  | unimplementedOpcode (opcode : BitVec 4)
  /-- ReservedOpcode: raised only under RESERVED_POLICY = Abort (R242). -/
  | reservedOpcode (opcode : BitVec 4)
  deriving DecidableEq, Repr

/-- The engine state (R44). `ia` is the address the aborted instruction was fetched from (R251, R252). -/
inductive EngineState where
  | running
  | halted
  | aborted (reason : AbortReason) (ia : Word)
  deriving DecidableEq, Repr

/-- One event the host answers a console read with (R22). -/
inductive ConsoleEvent where
  | byte (c : Byte)
  | endOfInput
  | error
  deriving DecidableEq, Repr

/-- The host's side of the console port (R22, D25; log 19, 20). -/
structure Console where
  /-- The events the host has ready, the next one first. -/
  input : List ConsoleEvent
  /-- What every read after those is answered with; none: the host never answers again (R270). -/
  tail : Option ConsoleEvent
  /-- none: the host accepts every write; some k: it accepts k more writes and answers Error to the one after. -/
  failingWrite : Option Nat
  /-- The bytes sent so far, the first one first. -/
  output : List Byte
  deriving DecidableEq, Repr

/-- The memory array M (20_memory.md R60): the words that are not zero, as (address, word) pairs with addresses strictly
rising (log 18). -/
abbrev Memory := List (Nat × Word)

/-- The canonical form of a memory: addresses strictly rising and inside the space, no listed word equal to the 0x0000
that an unlisted address reads as (R50, R60). -/
abbrev Memory.wf (m : Memory) : Prop :=
  m.Pairwise (fun c d => c.1 < d.1) ∧ ∀ c ∈ m, c.1 < 65536 ∧ c.2 ≠ 0

structure State where
  /-- The general registers R0 .. R7 (R30). -/
  regs : Vector Word 8
  /-- The program counter: while an instruction executes, its own address plus 1 (R35). -/
  pc : Word
  /-- The condition register (R36). -/
  cond : Cond
  /-- The memory array (R60). -/
  mem : Memory
  /-- RUNNING, HALTED or ABORTED (R44). -/
  engine : EngineState
  /-- The console port, seen from the host (R22). -/
  console : Console
  deriving DecidableEq, Repr

/-- Why there is no next state. Each is the spec's "no step": none is a value the model stops on. -/
inductive Fault where
  /-- Raised by the step of a HALTED or ABORTED engine: such a state has no step (R100, R290; log 23). Safe. -/
  | engineStopped
  /-- Raised by any instruction (its fetch included) inside a ConsoleRead() the host never answers: stuck, neither an
  error nor terminal (R270, D28; log 21). Safe. -/
  | blockedOnConsole
  /-- Raised by PUTS and PUTSP when no word or byte ever ends the walk: a hang inside the step, never a completed
  instruction (R216, D22; log 22). Safe. -/
  | serviceNeverEnds
  deriving DecidableEq, Repr

/-- An instruction without a meaning; no arm of exec answers one. -/
inductive Refusal where
  /-- Raised by no arm: every instruction has its meaning. Safe. -/
  | notModelled (mnemonic : String)
  deriving DecidableEq, Repr

/-- The answer of a meaning and of a step. -/
abbrev Outcome := Host.Outcome State Fault Refusal

/-- REG_INIT of State.reset. DESIGN CHOICE: the spec gives none (R50, D18); unsafe (log 12). -/
def State.regInit : Vector Word 8 := Vector.replicate 8 0

/-- COND_INIT of State.reset. DESIGN CHOICE: the spec gives none but one of N, Z, P (R50, D19); unsafe (log 13). -/
def State.condInit : Cond := .z

/-- The origin of State.reset. DESIGN CHOICE: the image chooses it (R284), and no image is loaded; unsafe (log 14). -/
def State.originInit : Word := 0x3000

/-- The console port at reset: no event ready, then the end of input, every write accepted, nothing sent. DESIGN CHOICE:
the host's side is outside the block; unsafe (log 19, 20). -/
def Console.reset : Console := { input := [], tail := some .endOfInput, failingWrite := none, output := [] }

/-- The machine right after reset with nothing placed in memory (R50, R284): the load of the image that holds only its
origin word (R282). -/
def State.reset : State :=
  { regs := State.regInit
    pc := State.originInit
    cond := State.condInit
    mem := []
    engine := .running
    console := Console.reset }

end Sys2Proof.Machine
end

