-- ==== Sys2Proof/Machine/Ops.lean ====
section
/-! DEFINITION. The named operations every instruction is built from: the primitives of the spec's pseudocode
(00_scope.md R13, R14), the memory interface (20_memory.md R63, R64), the console port (R22), raising an abort
(60_exceptions.md R252) and the fetch (30_encoding.md R100). -/

namespace Sys2Proof.Machine

/-! ### Word helpers (00_scope.md R11) -/

/-- sext_N. -/
def sext {k : Nat} (f : BitVec k) : Word := f.signExtend 16

/-- zext_8. -/
def zext8 (b : Byte) : Word := b.setWidth 16

/-- v[7:0]. -/
def loByte (v : Word) : Byte := v.extractLsb' 0 8

/-- v[15:8]. -/
def hiByte (v : Word) : Byte := v.extractLsb' 8 8

/-! ### The memory array -/

/-- M[a]: the listed word, or the 0x0000 every unwritten address holds (R50, R60). -/
def Memory.get (m : Memory) (a : Word) : Word :=
  match m with
  | [] => 0
  | (k, v) :: rest => if k = a.toNat then v else Memory.get rest a

/-- The memory with address `a` unlisted. -/
def Memory.erase (m : Memory) (a : Word) : Memory := m.filter (fun c => c.1 ≠ a.toNat)

/-- The memory with one more listed word, before the first higher address. -/
def Memory.insert (m : Memory) (k : Nat) (v : Word) : Memory :=
  match m with
  | [] => [(k, v)]
  | c :: rest => if k < c.1 then (k, v) :: c :: rest else c :: Memory.insert rest k v

/-- M[a] <- v, in canonical form: a word 0x0000 is not listed. -/
def Memory.set (m : Memory) (a v : Word) : Memory :=
  if v = 0 then m.erase a else (m.erase a).insert a.toNat v

/-! ### Reading and writing state -/

/-- x[r] (R13). -/
def readReg (r : Reg) (s : State) : Word := s.regs[r]

/-- x[r] <- v, all 16 bits (R34). -/
def writeReg (r : Reg) (v : Word) (s : State) : State := { s with regs := s.regs.set r v }

/-- pc <- target (R35). -/
def setPc (target : Word) (s : State) : State := { s with pc := target }

/-- state <- e (R44). -/
def setEngine (e : EngineState) (s : State) : State := { s with engine := e }

/-- What the console port holds after the host's answer. -/
def setConsole (c : Console) (s : State) : State := { s with console := c }

/-- M[a], the raw contents, with no device check (R13). -/
def rawWord (a : Word) (s : State) : Word := s.mem.get a

/-- MemWrite(a, 1, v): M[a] <- v and nothing else, at every address (R64, R67). -/
def memWrite (a v : Word) (s : State) : State := { s with mem := s.mem.set a v }

/-! ### The result of an operation that may end the instruction -/

/-- What an operation leaves: a value and the state it goes on in; the ABORTED state a raise left (R252); or no step at
all. -/
inductive Result (α : Type) where
  | ok (v : α) (s : State)
  | abort (s : State)
  | stuck (f : Fault)
  deriving DecidableEq, Repr

/-- The statements after an operation: they run only if it goes on (R15, R252). -/
def Result.bind {α β : Type} (r : Result α) (k : α → State → Result β) : Result β :=
  match r with
  | .ok v s => k v s
  | .abort s => .abort s
  | .stuck f => .stuck f

/-- The rest of an instruction after an operation; an ABORTED state is the step's next state (R252). -/
def Result.thenDo {α : Type} (r : Result α) (k : α → State → Outcome) : Outcome :=
  match r with
  | .ok v s => k v s
  | .abort s => .next s
  | .stuck f => .fault f

/-! ### Raising an abort (60_exceptions.md R251, R252): the machine's only exception. Nothing returns from it (R263). -/

/-- Where an operation is called from, for the record of an abort: the address of the instruction and, inside a
service, its trap vector (R251). -/
structure Site where
  ia : Word
  vector : Option Byte
  deriving DecidableEq, Repr

/-- The fetch's site: pc has not been incremented yet (R100). -/
def fetchSite (s : State) : Site := { ia := s.pc, vector := none }

/-- An executing instruction's site: pc is its address plus 1 (R35). -/
def instrSite (s : State) : Site := { ia := s.pc - 1, vector := none }

/-- A service's site (R251 "trap vector if in a service"; log 10). -/
def serviceSite (vector : Byte) (s : State) : Site := { ia := s.pc - 1, vector := some vector }

/-- raise Abort(reason, info): the run ends, every earlier effect remains (R252). -/
def raiseAbort (reason : AbortReason) (ia : Word) (s : State) : State := setEngine (.aborted reason ia) s

/-- raise Abort(IoFailure, ...): the kind, the vector if any, pc and ia are recorded (R219, R251). -/
def raiseIo (site : Site) (kind : IoKind) (s : State) : State :=
  raiseAbort (.ioFailure kind site.vector s.pc) site.ia s

/-! ### The console port (00_scope.md R22) -/

/-- ConsoleRead(): takes the host's next event; with none to come it never returns (R22, R270; log 19, 21). -/
def consoleRead (s : State) : Result ConsoleEvent :=
  match s.console.input with
  | e :: rest => .ok e (setConsole { s.console with input := rest } s)
  | [] =>
    match s.console.tail with
    | some e => .ok e s
    | none => .stuck .blockedOnConsole

/-- ConsoleWrite(b), with the raise every caller makes on Error (R22, R219; log 20). A byte whose write fails is not
counted as sent (log 24). -/
def consoleWrite (site : Site) (b : Byte) (s : State) : Result Unit :=
  match s.console.failingWrite with
  | none => .ok () (setConsole { s.console with output := s.console.output ++ [b] } s)
  | some 0 => .abort (raiseIo site .writeError s)
  | some (k + 1) =>
    .ok () (setConsole { s.console with failingWrite := some k, output := s.console.output ++ [b] } s)

/-- for b in bs: ConsoleWrite(b), up to the first failure (R214, R217), in closed form: which bytes leave depends only
on how many the host accepts. -/
def consoleWriteAll (site : Site) (bs : List Byte) (s : State) : Result Unit :=
  match s.console.failingWrite with
  | none => .ok () (setConsole { s.console with output := s.console.output ++ bs } s)
  | some k =>
    if bs.length ≤ k then
      .ok () (setConsole
        { s.console with failingWrite := some (k - bs.length), output := s.console.output ++ bs } s)
    else
      .abort (raiseIo site .writeError (setConsole
        { s.console with failingWrite := some 0, output := s.console.output ++ bs.take k } s))

/-! ### The memory interface (20_memory.md R63, R66) -/

/-- The keyboard device has obtained the character c: the ready bit is set and never cleared, the character goes to the
data register (R63, R66, D5, D13; log 4). -/
def keyboardTakes (c : Byte) (s : State) : State :=
  memWrite Config.kbdrAddr (zext8 c)
    (memWrite Config.kbsrAddr (rawWord Config.kbsrAddr s ||| 0x8000) s)

/-- MemRead(a, 1): a read of KBSR_ADDR, and no other, takes one console event first (R63, R66, R68, R71). -/
def memRead (site : Site) (a : Word) (s : State) : Result Word :=
  if a = Config.kbsrAddr then
    (consoleRead s).bind fun e s1 =>
      match e with
      | .byte c => .ok (rawWord a (keyboardTakes c s1)) (keyboardTakes c s1)
      | .endOfInput => .ok (rawWord a s1) s1
      | .error => .abort (raiseIo site .readError s1)
  else .ok (rawWord a s) s

/-! ### Fetch (30_encoding.md R100) -/

/-- instr <- MemRead(pc, 1); pc <- pc + 1. The read passes the device check (R69, D6; log 5). -/
def fetch (s : State) : Result Word :=
  (memRead (fetchSite s) s.pc s).bind fun w s1 => .ok w (setPc (s1.pc + 1) s1)

/-- M[pc] <- w: the next instruction's word placed from outside, as the load port places one (R283). -/
def placeAtPc (w : Word) (s : State) : State := memWrite s.pc w s

end Sys2Proof.Machine
end

