-- ==== Sys2Proof/Machine/Flags.lean ====
section
/-! DEFINITION. The condition flags (spec 10_state.md R36 to R40): setcc, and BR's test. -/

namespace Sys2Proof.Machine

/-- The one-hot bits of cond: N = 100, Z = 010, P = 001 (R37, D3; log 2). -/
def Cond.bits : Cond → BitVec 3
  | .n => 0b100
  | .z => 0b010
  | .p => 0b001

/-- The flag of a value: N if bit 15 is set, Z if it is zero, else P (R38). -/
def condOf (v : Word) : Cond := if v.getLsbD 15 then .n else if v = 0 then .z else .p

/-- setcc(v) (R38). -/
def setcc (v : Word) (s : State) : State := { s with cond := condOf v }

/-- A flag-setting register write: x[r] <- v; setcc(v) (R39). -/
def writeRegCC (r : Reg) (v : Word) (s : State) : State := setcc v (writeReg r v s)

/-- instr[11:9] of a BR as a 3-bit value (R108). -/
def condMask (n z p : Bool) : BitVec 3 := BitVec.ofBool n ++ BitVec.ofBool z ++ BitVec.ofBool p

/-- BR's test: (instr[11:9] & cond) != 0 (R190). -/
def branchTaken (n z p : Bool) (c : Cond) : Bool := condMask n z p &&& c.bits != 0

end Sys2Proof.Machine
end

