-- ==== Sys2Proof/Machine/Operands.lean ====
section
/-! DEFINITION. Operand forms and addressing modes (spec 30_encoding.md R105 to R107; 41_data_movement.md R167). Every
address is a sum modulo 65536 (00_scope.md R12), and pc is already the instruction's address plus 1 (R35). -/

namespace Sys2Proof.Machine

/-- The second operand of ADD and AND in immediate form: sext_5(instr[4:0]) (R106). -/
def immOperand (imm5 : BitVec 5) : Word := sext imm5

/-- PC-relative: pc + PCoffset9 (R107, R167). -/
def pcRelative9 (off9 : BitVec 9) (s : State) : Word := s.pc + sext off9

/-- JSR's target: pc + PCoffset11 (R107, R196). -/
def pcRelative11 (off11 : BitVec 11) (s : State) : Word := s.pc + sext off11

/-- Base + offset: x[BaseR] + offset6 (R107, R167). -/
def baseOffset (baseR : Reg) (off6 : BitVec 6) (s : State) : Word := readReg baseR s + sext off6

/-- Indirect: the pointer MemRead(pc + PCoffset9, 1) of LDI and STI (R167); the read may take a console event. -/
def indirect9 (off9 : BitVec 9) (s : State) : Result Word := memRead (instrSite s) (pcRelative9 off9 s) s

end Sys2Proof.Machine
end

