-- ==== Sys2Proof/Machine/Control.lean ====
section
/-! DEFINITION. BR, JMP, RET, JSR, JSRR (spec 42_control.md R190 to R197): no flag is written. -/

namespace Sys2Proof.Machine

/-- The register whose value is the return address, R7 (R8 LINK_REG, R31). -/
def linkReg : Reg := 7

/-- pc <- x[BaseR] (R192). -/
def jumpTo (baseR : Reg) (s : State) : State := setPc (readReg baseR s) s

/-- x[7] <- pc (R196, R197): the address of the word after the call. -/
def link (s : State) : State := writeReg linkReg s.pc s

/-- BR: pc <- pc + PCoffset9 if (nzp & cond) is not 0 (R190, R191). -/
def execBr (n z p : Bool) (off9 : BitVec 9) (s : State) : Outcome :=
  .next (if branchTaken n z p s.cond then setPc (pcRelative9 off9 s) s else s)

/-- JMP BaseR (R192). -/
def execJmp (baseR : Reg) (s : State) : Outcome := .next (jumpTo baseR s)

/-- RET = JMP R7 (R193). -/
def execRet (s : State) : Outcome := .next (jumpTo linkReg s)

/-- JSR PCoffset11 (R196, C2, D9; log 7). -/
def execJsr (off11 : BitVec 11) (s : State) : Outcome :=
  .next (setPc (pcRelative11 off11 s) (link s))

/-- JSRR BaseR: R7 is written first, then BaseR is read (R197, C2, D9, D10; log 7). -/
def execJsrr (baseR : Reg) (s : State) : Outcome := .next (jumpTo baseR (link s))

end Sys2Proof.Machine
end

