-- ==== Sys2Proof/Machine/DataMovement.lean ====
section
/-! DEFINITION. Loads, stores and LEA (spec 41_data_movement.md R160 to R167). A read may take a console event (R69), and
what follows a failing read does not run. -/

namespace Sys2Proof.Machine

/-- LD DR, PCoffset9 (R160). -/
def execLd (dr : Reg) (off9 : BitVec 9) (s : State) : Outcome :=
  (memRead (instrSite s) (pcRelative9 off9 s) s).thenDo fun v s1 => .next (writeRegCC dr v s1)

/-- LDI DR, PCoffset9: the pointer, then the value (R161). -/
def execLdi (dr : Reg) (off9 : BitVec 9) (s : State) : Outcome :=
  (indirect9 off9 s).thenDo fun p s1 =>
    (memRead (instrSite s1) p s1).thenDo fun v s2 => .next (writeRegCC dr v s2)

/-- LDR DR, BaseR, offset6 (R162). -/
def execLdr (dr baseR : Reg) (off6 : BitVec 6) (s : State) : Outcome :=
  (memRead (instrSite s) (baseOffset baseR off6 s) s).thenDo fun v s1 => .next (writeRegCC dr v s1)

/-- LEA DR, PCoffset9: the address itself; no memory access (R163, C1). -/
def execLea (dr : Reg) (off9 : BitVec 9) (s : State) : Outcome :=
  .next (writeRegCC dr (pcRelative9 off9 s) s)

/-- ST SR, PCoffset9 (R164). -/
def execSt (sr : Reg) (off9 : BitVec 9) (s : State) : Outcome :=
  .next (memWrite (pcRelative9 off9 s) (readReg sr s) s)

/-- STI SR, PCoffset9: the pointer read passes the device check, the store does not (R165, C4). -/
def execSti (sr : Reg) (off9 : BitVec 9) (s : State) : Outcome :=
  (indirect9 off9 s).thenDo fun p s1 => .next (memWrite p (readReg sr s1) s1)

/-- STR SR, BaseR, offset6 (R166). -/
def execStr (sr baseR : Reg) (off6 : BitVec 6) (s : State) : Outcome :=
  .next (memWrite (baseOffset baseR off6 s) (readReg sr s) s)

end Sys2Proof.Machine
end

