-- ==== Sys2Proof/Machine/Operate.lean ====
section
/-! DEFINITION. ADD, AND, NOT (spec 40_operate.md R140 to R147): the result to DR, the flag from the result. -/

namespace Sys2Proof.Machine

/-- ADD DR, SR1, SR2 (R140). -/
def execAddReg (dr sr1 sr2 : Reg) (s : State) : Outcome :=
  .next (writeRegCC dr (readReg sr1 s + readReg sr2 s) s)

/-- ADD DR, SR1, imm5 (R141). -/
def execAddImm (dr sr1 : Reg) (imm5 : BitVec 5) (s : State) : Outcome :=
  .next (writeRegCC dr (readReg sr1 s + immOperand imm5) s)

/-- AND DR, SR1, SR2 (R143). -/
def execAndReg (dr sr1 sr2 : Reg) (s : State) : Outcome :=
  .next (writeRegCC dr (readReg sr1 s &&& readReg sr2 s) s)

/-- AND DR, SR1, imm5 (R144). -/
def execAndImm (dr sr1 : Reg) (imm5 : BitVec 5) (s : State) : Outcome :=
  .next (writeRegCC dr (readReg sr1 s &&& immOperand imm5) s)

/-- NOT DR, SR (R146). -/
def execNot (dr sr : Reg) (s : State) : Outcome :=
  .next (writeRegCC dr (~~~ readReg sr s) s)

end Sys2Proof.Machine
end

