-- ==== Sys2Proof/Machine/Reserved.lean ====
section
/-! DEFINITION. The reserved opcodes RTI and RES (spec 44_reserved.md R240 to R242). -/

namespace Sys2Proof.Machine

/-- A reserved opcode under a policy: nothing, or Abort(ReservedOpcode) with the instruction's address (R242). -/
def reservedOp (policy : ReservedPolicy) (opcode : BitVec 4) (s : State) : State :=
  match policy with
  | .noOp => s
  | .abort => raiseAbort (.reservedOpcode opcode) (instrSite s).ia s

/-- RTI: a no-op; it returns from nothing (R240, R263). -/
def execRti (s : State) : Outcome := .next (reservedOp Config.reservedPolicy 0x8 s)

/-- RES: a no-op (R241). -/
def execRes (s : State) : Outcome := .next (reservedOp Config.reservedPolicy 0xD s)

end Sys2Proof.Machine
end

