-- ==== Sys2Proof/Machine/Trap.lean ====
section
/-! DEFINITION. TRAP and the six services, carried out by the block itself (spec 43_trap.md R210 to R220; log 8). In every
service pc already is the TRAP's address plus 1 and is not changed. -/

namespace Sys2Proof.Machine

/-- GETC: one event; its character to R0, no echo, no flag (R211). -/
def serviceGetc (s : State) : Outcome :=
  (consoleRead s).thenDo fun e s1 =>
    match e with
    | .byte c => .next (writeReg 0 (zext8 c) s1)
    | .endOfInput => .next (raiseIo (serviceSite 0x20 s1) .endOfInput s1)
    | .error => .next (raiseIo (serviceSite 0x20 s1) .readError s1)

/-- OUT: the byte in R0[7:0] (R212). -/
def serviceOut (s : State) : Outcome :=
  (consoleWrite (serviceSite 0x21 s) (loByte (readReg 0 s)) s).thenDo fun _ s1 => .next s1

/-- The loop PUTS and PUTSP share: read the word at a, do `word` with it, and unless that ended the string go on at
a + 1 (R213, R215, D22). The first number bounds the words read. -/
def walk (site : Site) (word : Word → State → Result Bool) : Nat → Word → State → Result Unit
  | 0, _, _ => .stuck .serviceNeverEnds
  | bound + 1, a, s =>
    (memRead site a s).bind fun w s1 =>
      (word w s1).bind fun ended s2 => if ended then .ok () s2 else walk site word bound (a + 1) s2

/-- PUTS with one word: a zero word ends the string, any other sends its low byte (R213). -/
def putsWord (site : Site) (w : Word) (s : State) : Result Bool :=
  if w = 0 then .ok true s
  else (consoleWrite site (loByte w) s).bind fun _ s1 => .ok false s1

/-- PUTSP with one word: the low byte, then the high byte; a zero byte ends the string (R215, D23). -/
def putspWord (site : Site) (w : Word) (s : State) : Result Bool :=
  if loByte w = 0 then .ok true s
  else
    (consoleWrite site (loByte w) s).bind fun _ s1 =>
      if hiByte w = 0 then .ok true s1
      else (consoleWrite site (hiByte w) s1).bind fun _ s2 => .ok false s2

/-- How many words a walk may read before it is known never to end with the answers the console holds (R216; log 19, 22).
Every 65,536 reads visit KBSR_ADDR once and take an event there, and once the listed events are used up two more rounds
change nothing; where a write is due to fail, every word that does not end the walk brings that write nearer. -/
def walkBound (s : State) : Nat :=
  65536 * (s.console.input.length + 2) +
    match s.console.failingWrite with
    | none => 0
    | some k => k + 1

/-- PUTS (R213, R216). -/
def servicePuts (s : State) : Outcome :=
  (walk (serviceSite 0x22 s) (putsWord (serviceSite 0x22 s)) (walkBound s) (readReg 0 s) s).thenDo fun _ s1 => .next s1

/-- IN: the prompt, one event, its echo, the character to R0, the flag from it (R214, D12). -/
def serviceIn (s : State) : Outcome :=
  (consoleWriteAll (serviceSite 0x23 s) Config.inPrompt s).thenDo fun _ s1 =>
    (consoleRead s1).thenDo fun e s2 =>
      match e with
      | .byte c =>
        (consoleWrite (serviceSite 0x23 s2) c s2).thenDo fun _ s3 => .next (writeRegCC 0 (zext8 c) s3)
      | .endOfInput => .next (raiseIo (serviceSite 0x23 s2) .endOfInput s2)
      | .error => .next (raiseIo (serviceSite 0x23 s2) .readError s2)

/-- PUTSP (R215, R216). -/
def servicePutsp (s : State) : Outcome :=
  (walk (serviceSite 0x24 s) (putspWord (serviceSite 0x24 s)) (walkBound s) (readReg 0 s) s).thenDo fun _ s1 => .next s1

/-- HALT: the notice, then HALTED (R217). -/
def serviceHalt (s : State) : Outcome :=
  (consoleWriteAll (serviceSite 0x25 s) Config.haltNotice s).thenDo fun _ s1 => .next (setEngine .halted s1)

/-- GETC (R211). -/
def execGetc (s : State) : Outcome := serviceGetc s

/-- OUT (R212). -/
def execOut (s : State) : Outcome := serviceOut s

/-- PUTS (R213). -/
def execPuts (s : State) : Outcome := servicePuts s

/-- IN (R214). -/
def execIn (s : State) : Outcome := serviceIn s

/-- PUTSP (R215). -/
def execPutsp (s : State) : Outcome := servicePutsp s

/-- HALT (R217). -/
def execHalt (s : State) : Outcome := serviceHalt s

/-- TRAP: the vector selects the service; any other vector does nothing (R210, R218). -/
def execTrap (vector : Byte) (s : State) : Outcome :=
  if vector = 0x20 then serviceGetc s
  else if vector = 0x21 then serviceOut s
  else if vector = 0x22 then servicePuts s
  else if vector = 0x23 then serviceIn s
  else if vector = 0x24 then servicePutsp s
  else if vector = 0x25 then serviceHalt s
  else .next s

end Sys2Proof.Machine
end

