-- ==== Sys2Proof/Machine/Step.lean ====
section
/-! DEFINITION. One step of the engine (spec 30_encoding.md R100), and placing the next instruction from outside. -/

namespace Sys2Proof.Machine

/-- One instruction while RUNNING; a HALTED or ABORTED engine has no step (R100, R290; log 23). -/
def step (s : State) : Host.Outcome State Fault Refusal :=
  match s.engine with
  | .running => (fetch s).thenDo fun w s1 => exec (decode w) s1
  | .halted => .fault .engineStopped
  | .aborted _ _ => .fault .engineStopped

/-- The word w at pc, where a RUNNING engine fetches its next instruction (R35, R100; log 14). Raw placement, as the load
port's: no device effect. -/
def State.withFetchWord (s : State) (nbits w : Nat) : State :=
  placeAtPc (BitVec.ofNat 16 (w % 2 ^ nbits)) s

end Sys2Proof.Machine
end

