-- ==== Sys2Proof/Machine/Load.lean ====
section
/-! DEFINITION. The load port (spec 00_scope.md R21; 70_reset_and_hazards.md R280 to R284): a byte image becomes the reset
state, or is refused before any step. -/

namespace Sys2Proof.Machine

/-- The failing check of InvalidImage (R251, R282). -/
inductive InvalidImage where
  | empty
  | oddLength
  | overflow
  deriving DecidableEq, Repr

/-- The image's words, each with its first byte high (R281). -/
def imageWords : List Byte → List Word
  | hi :: lo :: rest => (hi ++ lo) :: imageWords rest
  | [_] => []
  | [] => []

/-- M[a + k] <- words[k], in order, with no device effect (R283). -/
def placeWords : List Word → Word → Memory → Memory
  | [], _, m => m
  | w :: rest, a, m => placeWords rest (a + 1) (m.set a w)

/-- The check of R282 on an image split into its origin and its n program words; the sum does not wrap (D20; log 15). -/
def overflows (origin : Word) (n : Nat) : Bool := 1 ≤ n && 0xFFFF < origin.toNat + n - 1

/-- The reset state an image gives (R50, R284), for any REG_INIT, COND_INIT and console. -/
def loaded (origin : Word) (program : List Word) (regInit : Vector Word 8) (condInit : Cond) (console : Console) : State :=
  { regs := regInit
    pc := origin
    cond := condInit
    mem := placeWords program origin []
    engine := .running
    console := console }

/-- The load port (R21, R281 to R284). -/
def load (image : List Byte) (regInit : Vector Word 8) (condInit : Cond) (console : Console) :
    Except InvalidImage State :=
  if image.length % 2 = 1 then .error .oddLength
  else
    match imageWords image with
    | [] => .error .empty
    | origin :: program =>
      if overflows origin program.length then .error .overflow
      else .ok (loaded origin program regInit condInit console)

end Sys2Proof.Machine
end

