-- ==== Sys2Proof/Safety.lean ====
section
/-! DEFINITION. What the statements speak in: how a run ends (spec 70_reset_and_hazards.md R290), the invariant, the
vocabulary of frames, and the string services' loops as relations, written from the spec's pseudocode. -/

namespace Sys2Proof.Machine

/-! ### How a run ends (R44, R290) -/

/-- The designed, successful end (R290). -/
def Halted (s : State) : Prop := s.engine = .halted

/-- The other terminal state (R44). -/
def Aborted (s : State) : Prop := ∃ reason ia, s.engine = .aborted reason ia

/-- A console failure was raised in an instruction at `ia`: what the status output shows (R23, R251). -/
def AbortedIo (kind : IoKind) (vector : Option Byte) (ia pc : Word) (s : State) : Prop :=
  s.engine = .aborted (.ioFailure kind vector pc) ia

/-! ### The invariant -/

/-- Which services raise which kind of failure (the table of R251). -/
def ServiceRaises : IoKind → Byte → Prop
  | .readError, v => v = 0x20 ∨ v = 0x22 ∨ v = 0x23 ∨ v = 0x24
  | .endOfInput, v => v = 0x20 ∨ v = 0x23
  | .writeError, v => v = 0x21 ∨ v = 0x22 ∨ v = 0x23 ∨ v = 0x24 ∨ v = 0x25

/-- What an abort's record can say (R251, R252; 90_conflicts.md C7): only an I/O failure, recorded with the pc the state
still has. Either the fetch failed, at KBSR_ADDR, before pc moved; or a MemRead of the instruction failed; or one of the
services that raise that kind did, and then pc is ia + 1. -/
def AbortRecordOk (s : State) : Prop :=
  match s.engine with
  | .running => True
  | .halted => True
  | .aborted (.ioFailure kind vector pc) ia =>
    pc = s.pc ∧
      ((kind = .readError ∧ vector = none ∧ ((pc = ia ∧ ia = Config.kbsrAddr) ∨ pc = ia + 1)) ∨
        ∃ v, vector = some v ∧ ServiceRaises kind v ∧ pc = ia + 1)
  | .aborted (.unimplementedOpcode _) _ => False
  | .aborted (.reservedOpcode _) _ => False

/-- The invariant of every step: memory in canonical form, and an abort's record as the spec says it can be. -/
def Inv (s : State) : Prop := s.mem.wf ∧ AbortRecordOk s

/-! ### The vocabulary of the statements -/

/-- The len bits of w from bit lo upward, read as a number (R9). -/
def bitsOf (w : Word) (lo len : Nat) : Nat := w.toNat / 2 ^ lo % 2 ^ len

/-- The flag a 16-bit value gives, read as a two's-complement number (R10, R38). -/
def FlagFor (v : Word) (c : Cond) : Prop :=
  (v.toInt < 0 ∧ c = .n) ∨ (v.toInt = 0 ∧ c = .z) ∨ (0 < v.toInt ∧ c = .p)

/-- A word is the value of an integer modulo 65536 (R12). -/
def IsWord (v : Word) (z : Int) : Prop := (v.toNat : Int) = z % 65536

/-- Every register but r as before. -/
def SameRegsBut (r : Reg) (s t : State) : Prop := ∀ q, q ≠ r → readReg q t = readReg q s

/-- Every register as before. -/
def SameRegs (s t : State) : Prop := ∀ q, readReg q t = readReg q s

/-- Every word of memory as before. -/
def SameMem (s t : State) : Prop := ∀ a, rawWord a t = rawWord a s

/-- Every word of memory but the one at a as before. -/
def SameMemBut (a : Word) (s t : State) : Prop := ∀ b, b ≠ a → rawWord b t = rawWord b s

/-- The engine state and the console port as before. -/
def SamePorts (s t : State) : Prop := t.engine = s.engine ∧ t.console = s.console

/-- From s to t, register dr took the value v and cond its flag, and nothing else changed (R34, R38). -/
def WroteReg (dr : Reg) (v : Word) (s t : State) : Prop :=
  readReg dr t = v ∧ FlagFor v t.cond ∧ SameRegsBut dr s t ∧ t.pc = s.pc ∧ SameMem s t ∧ SamePorts s t

/-- From s to t, memory word a took the value v and nothing else changed (R64). -/
def WroteMem (a v : Word) (s t : State) : Prop :=
  rawWord a t = v ∧ SameMemBut a s t ∧ SameRegs s t ∧ t.pc = s.pc ∧ t.cond = s.cond ∧ SamePorts s t

/-- From s to t at most pc, the engine state and the console port changed. -/
def SameData (s t : State) : Prop := SameRegs s t ∧ t.cond = s.cond ∧ SameMem s t

/-- The host's next answer to a console read is e, and c is the port after it (R22). -/
def NextEvent (e : ConsoleEvent) (before after : Console) : Prop :=
  (∃ rest, before.input = e :: rest ∧ after = { before with input := rest }) ∨
    (before.input = [] ∧ before.tail = some e ∧ after = before)

/-- The host never answers the next console read (R270). -/
def NeverAnswers (c : Console) : Prop := c.input = [] ∧ c.tail = none

/-- The host accepts the next k writes (R22). -/
def AcceptsWrites (k : Nat) (c : Console) : Prop := ∀ n, c.failingWrite = some n → k ≤ n

/-- The port after the bytes bs were accepted (R22): they stand at the end of the output, and k becomes k minus their
number where a failing write is due. -/
def Sent (bs : List Byte) (before after : Console) : Prop :=
  after.input = before.input ∧ after.tail = before.tail ∧ after.output = before.output ++ bs ∧
    after.failingWrite = before.failingWrite.map (· - bs.length)

/-- The register an instruction's own rule writes (10_state.md R33). -/
def writtenReg : Instr → Option Reg
  | .addReg dr _ _ => some dr
  | .addImm dr _ _ => some dr
  | .andReg dr _ _ => some dr
  | .andImm dr _ _ => some dr
  | .not dr _ => some dr
  | .ld dr _ => some dr
  | .ldi dr _ => some dr
  | .ldr dr _ _ => some dr
  | .lea dr _ => some dr
  | .st _ _ => none
  | .sti _ _ => none
  | .str _ _ _ => none
  | .br _ _ _ _ => none
  | .jmp _ => none
  | .jsr _ => some 7
  | .jsrr _ => some 7
  | .trap v => if v = 0x20 ∨ v = 0x23 then some 0 else none
  | .rti => none
  | .res => none
  | .ret => none
  | .getc => some 0
  | .out => none
  | .puts => none
  | .inChar => some 0
  | .putsp => none
  | .halt => none

/-- The instructions whose register write calls setcc (10_state.md R39). -/
def setsFlags : Instr → Bool
  | .addReg _ _ _ => true
  | .addImm _ _ _ => true
  | .andReg _ _ _ => true
  | .andImm _ _ _ => true
  | .not _ _ => true
  | .ld _ _ => true
  | .ldi _ _ => true
  | .ldr _ _ _ => true
  | .lea _ _ => true
  | .st _ _ => false
  | .sti _ _ => false
  | .str _ _ _ => false
  | .br _ _ _ _ => false
  | .jmp _ => false
  | .jsr _ => false
  | .jsrr _ => false
  | .trap v => v = 0x23
  | .rti => false
  | .res => false
  | .ret => false
  | .getc => false
  | .out => false
  | .puts => false
  | .inChar => true
  | .putsp => false
  | .halt => false

/-- The instructions that write pc beyond the fetch increment (10_state.md R35). -/
def writesPc : Instr → Bool
  | .br _ _ _ _ => true
  | .jmp _ => true
  | .jsr _ => true
  | .jsrr _ => true
  | .ret => true
  | .addReg _ _ _ => false
  | .addImm _ _ _ => false
  | .andReg _ _ _ => false
  | .andImm _ _ _ => false
  | .not _ _ => false
  | .ld _ _ => false
  | .ldi _ _ => false
  | .ldr _ _ _ => false
  | .lea _ _ => false
  | .st _ _ => false
  | .sti _ _ => false
  | .str _ _ _ => false
  | .trap _ => false
  | .rti => false
  | .res => false
  | .getc => false
  | .out => false
  | .puts => false
  | .inChar => false
  | .putsp => false
  | .halt => false

/-- The address an instruction stores to (R164 to R166): ST and STR compute it; STI reads it, and stores nothing when
that read does not give a pointer. -/
def StoresTo (i : Instr) (s : State) (a : Word) : Prop :=
  match i with
  | .st _ off9 => a = pcRelative9 off9 s
  | .str _ baseR off6 => a = baseOffset baseR off6 s
  | .sti _ off9 => ∃ s1, indirect9 off9 s = .ok a s1
  | .addReg _ _ _ => False
  | .addImm _ _ _ => False
  | .andReg _ _ _ => False
  | .andImm _ _ _ => False
  | .not _ _ => False
  | .ld _ _ => False
  | .ldi _ _ => False
  | .ldr _ _ _ => False
  | .lea _ _ => False
  | .br _ _ _ _ => False
  | .jmp _ => False
  | .jsr _ => False
  | .jsrr _ => False
  | .trap _ => False
  | .rti => False
  | .res => False
  | .ret => False
  | .getc => False
  | .out => False
  | .puts => False
  | .inChar => False
  | .putsp => False
  | .halt => False

/-! ### The string services' loops, as relations (R213, R215) -/

/-- PUTS's loop of R213 from address a in state s ends with r: at a zero word; at a read or a write that does not go on;
or as the loop from the next address does. -/
inductive PutsEnds (site : Site) : Word → State → Result Unit → Prop where
  | zeroWord {a s s1} : memRead site a s = .ok 0 s1 → PutsEnds site a s (.ok () s1)
  | readAborts {a s t} : memRead site a s = .abort t → PutsEnds site a s (.abort t)
  | readBlocks {a s f} : memRead site a s = .stuck f → PutsEnds site a s (.stuck f)
  | writeAborts {a s s1 w t} : memRead site a s = .ok w s1 → w ≠ 0 →
      consoleWrite site (loByte w) s1 = .abort t → PutsEnds site a s (.abort t)
  | goesOn {a s s1 s2 w r} : memRead site a s = .ok w s1 → w ≠ 0 →
      consoleWrite site (loByte w) s1 = .ok () s2 → PutsEnds site (a + 1) s2 r → PutsEnds site a s r

/-- PUTSP's loop of R215 from address a in state s ends with r. -/
inductive PutspEnds (site : Site) : Word → State → Result Unit → Prop where
  | zeroLow {a s s1 w} : memRead site a s = .ok w s1 → loByte w = 0 → PutspEnds site a s (.ok () s1)
  | readAborts {a s t} : memRead site a s = .abort t → PutspEnds site a s (.abort t)
  | readBlocks {a s f} : memRead site a s = .stuck f → PutspEnds site a s (.stuck f)
  | lowAborts {a s s1 w t} : memRead site a s = .ok w s1 → loByte w ≠ 0 →
      consoleWrite site (loByte w) s1 = .abort t → PutspEnds site a s (.abort t)
  | zeroHigh {a s s1 s2 w} : memRead site a s = .ok w s1 → loByte w ≠ 0 →
      consoleWrite site (loByte w) s1 = .ok () s2 → hiByte w = 0 → PutspEnds site a s (.ok () s2)
  | highAborts {a s s1 s2 w t} : memRead site a s = .ok w s1 → loByte w ≠ 0 →
      consoleWrite site (loByte w) s1 = .ok () s2 → hiByte w ≠ 0 →
      consoleWrite site (hiByte w) s2 = .abort t → PutspEnds site a s (.abort t)
  | goesOn {a s s1 s2 s3 w r} : memRead site a s = .ok w s1 → loByte w ≠ 0 →
      consoleWrite site (loByte w) s1 = .ok () s2 → hiByte w ≠ 0 →
      consoleWrite site (hiByte w) s2 = .ok () s3 → PutspEnds site (a + 1) s3 r → PutspEnds site a s r

/-- A loop's end as the outcome of the TRAP (R216, R219). -/
def asOutcome : Result Unit → Outcome
  | .ok () s => .next s
  | .abort s => .next s
  | .stuck f => .fault f

end Sys2Proof.Machine
end

