-- ==== Sys2Proof/Certificates/Slice0/Obligations.lean ====
section
/-! DEFINITION. The statements for the provers, each a Prop that names the rules of spec/ it formalises. They speak in the
words of Sys2Proof/Safety.lean; exec is the instruction's own effect, in the state its fetch left, where pc already is the
instruction's address plus 1 (R35). -/

open Sys2Proof Sys2Proof.Machine

/-! ### Reset and the load port -/

/-- R281, R283, R284 (70_reset_and_hazards.md): what an accepted image leaves, for every REG_INIT and COND_INIT: pc is the
origin word, big-endian; the program words stand from there in order; every other word is zero; the engine runs. -/
def Obligations.AcceptedImageGivesTheResetState : Prop :=
  ∀ (image : List Byte) (regInit : Vector Word 8) (condInit : Cond) (console : Console) (s : State),
    load image regInit condInit console = .ok s →
    s.pc.toNat = (image.getD 0 0).toNat * 256 + (image.getD 1 0).toNat ∧
    s.engine = .running ∧ s.regs = regInit ∧ s.cond = condInit ∧ s.console = console ∧
    (∀ k, 2 * k + 3 < image.length →
      (rawWord (s.pc + BitVec.ofNat 16 k) s).toNat =
        (image.getD (2 * k + 2) 0).toNat * 256 + (image.getD (2 * k + 3) 0).toNat) ∧
    (∀ a, (∀ k, 2 * k + 3 < image.length → a ≠ s.pc + BitVec.ofNat 16 k) → rawWord a s = 0)

/-- R282 (70_reset_and_hazards.md; what "length" means there is the spec's own decision D20, log 15): the load port
refuses an image exactly when it is empty, has odd length, or its n program words would pass 0xFFFF, and accepts every
other. -/
def Obligations.LoadPortRefusesExactlyTheInvalidImages : Prop :=
  ∀ (image : List Byte) (regInit : Vector Word 8) (condInit : Cond) (console : Console),
    ((∃ e, load image regInit condInit console = .error e) ↔
      (image.length = 0 ∨ image.length % 2 = 1 ∨
        (1 ≤ image.length / 2 - 1 ∧
          (image.getD 0 0).toNat * 256 + (image.getD 1 0).toNat + (image.length / 2 - 1) - 1 > 0xFFFF)))

/-- The model's choice (log 12, 13, 14, 19, 20): State.reset is the load of the image that holds only the origin word
0x3000, with zero registers, flag Z, no console event listed and then the end of input, and every write accepted. -/
def Obligations.ResetIsTheLoadOfAnOriginOnlyImage : Prop :=
  load [0x30, 0x00] State.regInit State.condInit Console.reset = .ok State.reset ∧
    (∀ r, readReg r State.reset = 0) ∧ State.reset.cond = .z ∧ State.reset.pc = 0x3000 ∧
    (∀ a, rawWord a State.reset = 0) ∧ State.reset.engine = .running

/-- The invariant of every step holds at reset. -/
def Obligations.ResetMeetsTheInvariant : Prop := Inv State.reset

/-- The invariant of every step holds in the reset state of every accepted image, whatever REG_INIT and COND_INIT. -/
def Obligations.EveryLoadedStateMeetsTheInvariant : Prop :=
  ∀ (image : List Byte) (regInit : Vector Word 8) (condInit : Cond) (console : Console) (s : State),
    load image regInit condInit console = .ok s → Inv s

/-- HEADLINE. Every step keeps the invariant: memory stays in canonical form, and an ABORTED state records only an I/O
failure, of a kind its service can raise, with the pc the state still has and the address of the instruction (R251, R252;
90_conflicts.md C7). -/
def Obligations.EveryStepKeepsTheInvariant : Prop :=
  ∀ s t : State, Inv s → step s = .next t → Inv t

/-! ### Memory -/

/-- R64 (20_memory.md): MemWrite sets one word and has no other effect, at every address, the keyboard's included; the
canonical form is kept. -/
def Obligations.MemWriteReplacesOneWordOnly : Prop :=
  ∀ (a v : Word) (s : State),
    WroteMem a v s (memWrite a v s) ∧ (s.mem.wf → (memWrite a v s).mem.wf)

/-- The spec's own reading of the keyboard check (20_memory.md R63, R66, R68, decisions D5, D13, D15; log 4, 10): a read
away from KBSR_ADDR is the raw word and changes nothing; a read of KBSR_ADDR takes one event. A character sets bit 15 and
KBDR; the end of input changes no word; an error aborts; with no answer there is no step. -/
def Obligations.MemReadChecksTheKeyboard : Prop :=
  ∀ (site : Site) (a : Word) (s : State),
    (a ≠ Config.kbsrAddr → memRead site a s = .ok (rawWord a s) s) ∧
    (a = Config.kbsrAddr →
      (∀ c k, NextEvent (.byte c) s.console k →
        ∃ t, memRead site a s = .ok (rawWord Config.kbsrAddr s ||| 0x8000) t ∧
          rawWord Config.kbsrAddr t = rawWord Config.kbsrAddr s ||| 0x8000 ∧
          (rawWord Config.kbdrAddr t).toNat = c.toNat ∧
          (∀ b, b ≠ Config.kbsrAddr → b ≠ Config.kbdrAddr → rawWord b t = rawWord b s) ∧
          SameRegs s t ∧ t.pc = s.pc ∧ t.cond = s.cond ∧ t.engine = s.engine ∧ t.console = k) ∧
      (∀ k, NextEvent .endOfInput s.console k →
        ∃ t, memRead site a s = .ok (rawWord Config.kbsrAddr s) t ∧
          SameData s t ∧ t.pc = s.pc ∧ t.engine = s.engine ∧ t.console = k) ∧
      (∀ k, NextEvent .error s.console k →
        ∃ t, memRead site a s = .abort t ∧ AbortedIo .readError site.vector site.ia s.pc t ∧
          SameData s t ∧ t.pc = s.pc ∧ t.console = k) ∧
      (NeverAnswers s.console → memRead site a s = .stuck .blockedOnConsole))

/-- Two memories in canonical form that read the same at every address are the same list. -/
def Obligations.CanonicalMemoriesThatReadAlikeAreEqual : Prop :=
  ∀ m m' : Memory, m.wf → m'.wf → (∀ a, m.get a = m'.get a) → m = m'

/-! ### Encoding. The opcode values and most field positions are the spec's own choices D1 and D2 (log 1). -/

/-- HEADLINE. Decoding the word of a well-formed instruction gives it back, with every operand at every value. -/
def Obligations.DecodeOfEncodeIsTheInstruction : Prop :=
  ∀ i : Instr, i.wf = true → decode (encode i) = i

/-- Every word decodes to a well-formed instruction, and encoding that gives back every bit its format uses. -/
def Obligations.EncodeOfDecodeKeepsEveryUsedBit : Prop :=
  ∀ w : Word, (decode w).wf = true ∧ encode (decode w) &&& usedBits (decode w) = w &&& usedBits (decode w)

/-- The spec's decision D21 (30_encoding.md R111, log 16): the bits no field uses can take any value. Bits 4:3 of ADD and
AND in register form, 5:0 of NOT, 11:9 and 5:0 of JMP, 10:9 and 5:0 of JSRR, 11:8 of TRAP, 11:0 of RTI and RES. -/
def Obligations.IgnoredBitsDoNotChangeDecoding : Prop :=
  ∀ w x : Word,
    ((bitsOf w 12 4 = 1 ∨ bitsOf w 12 4 = 5) → bitsOf w 5 1 = 0 → decode (w ^^^ (x &&& 0x0018)) = decode w) ∧
    (bitsOf w 12 4 = 9 → decode (w ^^^ (x &&& 0x003F)) = decode w) ∧
    (bitsOf w 12 4 = 12 → decode (w ^^^ (x &&& 0x0E3F)) = decode w) ∧
    (bitsOf w 12 4 = 4 → bitsOf w 11 1 = 0 → decode (w ^^^ (x &&& 0x063F)) = decode w) ∧
    (bitsOf w 12 4 = 15 → decode (w ^^^ (x &&& 0x0F00)) = decode w) ∧
    ((bitsOf w 12 4 = 8 ∨ bitsOf w 12 4 = 13) → decode (w ^^^ (x &&& 0x0FFF)) = decode w)

/-- The opcode map of 30_encoding.md (R102, R110, R112; decision D1, log 1): the top four bits, and bit 5 or bit 11 where
two forms share an opcode, select the instruction; no word is left out. -/
def Obligations.TopBitsAndModeBitsSelectTheInstruction : Prop :=
  ∀ w : Word,
    (bitsOf w 12 4 = 0 → ∃ n z p o, decode w = .br n z p o) ∧
    (bitsOf w 12 4 = 1 → bitsOf w 5 1 = 0 → ∃ d a b, decode w = .addReg d a b) ∧
    (bitsOf w 12 4 = 1 → bitsOf w 5 1 = 1 → ∃ d a i, decode w = .addImm d a i) ∧
    (bitsOf w 12 4 = 2 → ∃ d o, decode w = .ld d o) ∧
    (bitsOf w 12 4 = 3 → ∃ r o, decode w = .st r o) ∧
    (bitsOf w 12 4 = 4 → bitsOf w 11 1 = 1 → ∃ o, decode w = .jsr o) ∧
    (bitsOf w 12 4 = 4 → bitsOf w 11 1 = 0 → ∃ b, decode w = .jsrr b) ∧
    (bitsOf w 12 4 = 5 → bitsOf w 5 1 = 0 → ∃ d a b, decode w = .andReg d a b) ∧
    (bitsOf w 12 4 = 5 → bitsOf w 5 1 = 1 → ∃ d a i, decode w = .andImm d a i) ∧
    (bitsOf w 12 4 = 6 → ∃ d b o, decode w = .ldr d b o) ∧
    (bitsOf w 12 4 = 7 → ∃ r b o, decode w = .str r b o) ∧
    (bitsOf w 12 4 = 8 → decode w = .rti) ∧
    (bitsOf w 12 4 = 9 → ∃ d r, decode w = .not d r) ∧
    (bitsOf w 12 4 = 10 → ∃ d o, decode w = .ldi d o) ∧
    (bitsOf w 12 4 = 11 → ∃ r o, decode w = .sti r o) ∧
    (bitsOf w 12 4 = 12 → decode w = .ret ∨ ∃ b, decode w = .jmp b) ∧
    (bitsOf w 12 4 = 13 → decode w = .res) ∧
    (bitsOf w 12 4 = 14 → ∃ d o, decode w = .lea d o) ∧
    (bitsOf w 12 4 = 15 →
      decode w ∈ [.getc, .out, .puts, .inChar, .putsp, .halt] ∨ ∃ v, decode w = .trap v)

/-- Words of 95_test_vectors.md and of the rules' own examples decode to the instructions they stand for there. -/
def Obligations.SampleWordsDecodeAsTheSpecSays : Prop :=
  decode 0x1401 = .addReg 2 0 1 ∧ decode 0x127B = .addImm 1 1 (-5) ∧ decode 0x5042 = .andReg 0 1 2 ∧
  decode 0x56F0 = .andImm 3 3 (-16) ∧ decode 0x997F = .not 4 5 ∧ decode 0x2206 = .ld 1 6 ∧
  decode 0xA003 = .ldi 0 3 ∧ decode 0x64FF = .ldr 2 3 (-1) ∧ decode 0xE002 = .lea 0 2 ∧
  decode 0x30FF = .st 0 255 ∧ decode 0xB204 = .sti 1 4 ∧ decode 0x7943 = .str 4 5 3 ∧
  decode 0x03FD = .br false false true (-3) ∧ decode 0xC080 = .jmp 2 ∧ decode 0xC1C0 = .ret ∧
  decode 0x4802 = .jsr 2 ∧ decode 0x40C0 = .jsrr 3 ∧ decode 0xF026 = .trap 0x26 ∧ decode 0xFF25 = .halt ∧
  decode 0xF020 = .getc ∧ decode 0x8FFF = .rti ∧ decode 0xD123 = .res

/-! ### The step -/

/-- R100 (30_encoding.md): while RUNNING, a step fetches through MemRead, increments pc, and runs exactly the decoded
instruction from there; a fetch that aborts or blocks ends the step; HALTED and ABORTED have no step. -/
def Obligations.StepRunsTheDecodedInstruction : Prop :=
  ∀ s : State,
    (s.engine = .running →
      (∀ w u, memRead (fetchSite s) s.pc s = .ok w u → step s = exec (decode w) (setPc (s.pc + 1) u)) ∧
      (∀ u, memRead (fetchSite s) s.pc s = .abort u → step s = .next u) ∧
      (∀ f, memRead (fetchSite s) s.pc s = .stuck f → step s = .fault f) ∧
      (s.pc ≠ Config.kbsrAddr → step s = exec (decode (rawWord s.pc s)) (setPc (s.pc + 1) s))) ∧
    (s.engine ≠ .running → step s = .fault .engineStopped)

/-- The spec's decisions D6 and D15 (60_exceptions.md R261 item 1; log 5): a fetch from KBSR_ADDR that meets a console
error ends the run before the instruction does anything, with pc still at KBSR_ADDR. -/
def Obligations.FailingFetchAbortsBeforeTheInstruction : Prop :=
  ∀ (s : State) (k : Console), s.engine = .running → s.pc = Config.kbsrAddr → NextEvent .error s.console k →
    ∃ t, step s = .next t ∧ AbortedIo .readError none Config.kbsrAddr Config.kbsrAddr t ∧
      SameData s t ∧ t.pc = s.pc ∧ t.console = k

/-- Where an instruction is placed for the next step (log 14): a RUNNING machine away from KBSR_ADDR runs exactly it. -/
def Obligations.PlacedWordIsTheNextInstruction : Prop :=
  ∀ (s : State) (w : Nat), s.engine = .running → s.pc ≠ Config.kbsrAddr → w < 65536 →
    ∃ i, decodeTableWord 16 w = some i ∧
      step (s.withFetchWord 16 w) = exec i (setPc (s.pc + 1) (memWrite s.pc (BitVec.ofNat 16 w) s))

/-- The spec derives (20_memory.md R74): a store is seen by the fetch of the very next instruction. -/
def Obligations.StoredWordIsFetchedByTheNextStep : Prop :=
  ∀ (sr baseR : Reg) (off9 : BitVec 9) (off6 : BitVec 6) (i : Instr) (s t : State) (a : Word),
    (i = .st sr off9 ∨ i = .sti sr off9 ∨ i = .str sr baseR off6) →
    StoresTo i s a → exec i s = .next t → t.engine = .running → t.pc = a → a ≠ Config.kbsrAddr →
    step t = exec (decode (readReg sr s)) (setPc (a + 1) t)

/-! ### Flags -/

/-- R38 (10_state.md): setcc gives N for a negative word, Z for zero, else P, and changes nothing else. -/
def Obligations.SetccFollowsTheSignOfTheValue : Prop :=
  ∀ (v : Word) (s : State), FlagFor v (setcc v s).cond ∧
    SameRegs s (setcc v s) ∧ (setcc v s).pc = s.pc ∧ SameMem s (setcc v s) ∧ SamePorts s (setcc v s)

/-! ### Operate instructions (40_operate.md). In this part and the next three, the decoding clause of a statement is the
Encoding line of its rule; the opcode values and most field positions there are the spec's own choices D1, D2 (log 1). -/

/-- R140: ADD, register form. DR gets the sum modulo 65536, the flag follows it, nothing else changes. -/
def Obligations.AddRegisterForm : Prop :=
  ∀ (dr sr1 sr2 : Reg) (s : State),
    (∀ w, bitsOf w 12 4 = 1 → bitsOf w 9 3 = dr → bitsOf w 6 3 = sr1 → bitsOf w 5 1 = 0 → bitsOf w 0 3 = sr2 →
      decode w = .addReg dr sr1 sr2) ∧
    ∃ v t, exec (.addReg dr sr1 sr2) s = .next t ∧ WroteReg dr v s t ∧
      IsWord v ((readReg sr1 s).toNat + (readReg sr2 s).toNat)

/-- R141: ADD, immediate form. -/
def Obligations.AddImmediateForm : Prop :=
  ∀ (dr sr1 : Reg) (imm5 : BitVec 5) (s : State),
    (∀ w, bitsOf w 12 4 = 1 → bitsOf w 9 3 = dr → bitsOf w 6 3 = sr1 → bitsOf w 5 1 = 1 → bitsOf w 0 5 = imm5.toNat →
      decode w = .addImm dr sr1 imm5) ∧
    ∃ v t, exec (.addImm dr sr1 imm5) s = .next t ∧ WroteReg dr v s t ∧
      IsWord v ((readReg sr1 s).toNat + imm5.toInt)

/-- R143: AND, register form. -/
def Obligations.AndRegisterForm : Prop :=
  ∀ (dr sr1 sr2 : Reg) (s : State),
    (∀ w, bitsOf w 12 4 = 5 → bitsOf w 9 3 = dr → bitsOf w 6 3 = sr1 → bitsOf w 5 1 = 0 → bitsOf w 0 3 = sr2 →
      decode w = .andReg dr sr1 sr2) ∧
    ∃ v t, exec (.andReg dr sr1 sr2) s = .next t ∧ WroteReg dr v s t ∧
      ∀ k, k < 16 → v.getLsbD k = ((readReg sr1 s).getLsbD k && (readReg sr2 s).getLsbD k)

/-- R144: AND, immediate form; bits 15:5 of the mask are the immediate's sign bit. -/
def Obligations.AndImmediateForm : Prop :=
  ∀ (dr sr1 : Reg) (imm5 : BitVec 5) (s : State),
    (∀ w, bitsOf w 12 4 = 5 → bitsOf w 9 3 = dr → bitsOf w 6 3 = sr1 → bitsOf w 5 1 = 1 → bitsOf w 0 5 = imm5.toNat →
      decode w = .andImm dr sr1 imm5) ∧
    ∃ v t, exec (.andImm dr sr1 imm5) s = .next t ∧ WroteReg dr v s t ∧
      ∀ k, k < 16 → v.getLsbD k = ((readReg sr1 s).getLsbD k && imm5.getLsbD (min k 4))

/-- R146: NOT. -/
def Obligations.NotComplementsEveryBit : Prop :=
  ∀ (dr sr : Reg) (s : State),
    (∀ w, bitsOf w 12 4 = 9 → bitsOf w 9 3 = dr → bitsOf w 6 3 = sr → decode w = .not dr sr) ∧
    ∃ v t, exec (.not dr sr) s = .next t ∧ WroteReg dr v s t ∧
      ∀ k, k < 16 → v.getLsbD k = !(readReg sr s).getLsbD k

/-! ### Data movement (41_data_movement.md). a is the address; a read that goes on, aborts or blocks is MemRead's (see
MemReadChecksTheKeyboard), and an address other than KBSR_ADDR always goes on. -/

/-- R160: LD. -/
def Obligations.LdLoadsFromPcPlusOffset : Prop :=
  ∀ (dr : Reg) (off9 : BitVec 9) (s : State) (a : Word), IsWord a (s.pc.toNat + off9.toInt) →
    (∀ w, bitsOf w 12 4 = 2 → bitsOf w 9 3 = dr → bitsOf w 0 9 = off9.toNat → decode w = .ld dr off9) ∧
    (a ≠ Config.kbsrAddr → ∃ t, exec (.ld dr off9) s = .next t ∧ WroteReg dr (rawWord a s) s t) ∧
    (∀ v u, memRead (instrSite s) a s = .ok v u → ∃ t, exec (.ld dr off9) s = .next t ∧ WroteReg dr v u t) ∧
    (∀ u, memRead (instrSite s) a s = .abort u → exec (.ld dr off9) s = .next u) ∧
    (∀ f, memRead (instrSite s) a s = .stuck f → exec (.ld dr off9) s = .fault f)

/-- R161: LDI, two dependent reads; a first read that fails prevents the second. -/
def Obligations.LdiLoadsThroughThePointer : Prop :=
  ∀ (dr : Reg) (off9 : BitVec 9) (s : State) (a : Word), IsWord a (s.pc.toNat + off9.toInt) →
    (∀ w, bitsOf w 12 4 = 10 → bitsOf w 9 3 = dr → bitsOf w 0 9 = off9.toNat → decode w = .ldi dr off9) ∧
    (a ≠ Config.kbsrAddr → rawWord a s ≠ Config.kbsrAddr →
      ∃ t, exec (.ldi dr off9) s = .next t ∧ WroteReg dr (rawWord (rawWord a s) s) s t) ∧
    (∀ p u, memRead (instrSite s) a s = .ok p u →
      (∀ v u', memRead (instrSite s) p u = .ok v u' →
        ∃ t, exec (.ldi dr off9) s = .next t ∧ WroteReg dr v u' t) ∧
      (∀ u', memRead (instrSite s) p u = .abort u' → exec (.ldi dr off9) s = .next u') ∧
      (∀ f, memRead (instrSite s) p u = .stuck f → exec (.ldi dr off9) s = .fault f)) ∧
    (∀ u, memRead (instrSite s) a s = .abort u → exec (.ldi dr off9) s = .next u) ∧
    (∀ f, memRead (instrSite s) a s = .stuck f → exec (.ldi dr off9) s = .fault f)

/-- R162: LDR; the base is read before DR is written. -/
def Obligations.LdrLoadsFromBasePlusOffset : Prop :=
  ∀ (dr baseR : Reg) (off6 : BitVec 6) (s : State) (a : Word), IsWord a ((readReg baseR s).toNat + off6.toInt) →
    (∀ w, bitsOf w 12 4 = 6 → bitsOf w 9 3 = dr → bitsOf w 6 3 = baseR → bitsOf w 0 6 = off6.toNat →
      decode w = .ldr dr baseR off6) ∧
    (a ≠ Config.kbsrAddr → ∃ t, exec (.ldr dr baseR off6) s = .next t ∧ WroteReg dr (rawWord a s) s t) ∧
    (∀ v u, memRead (instrSite s) a s = .ok v u →
      ∃ t, exec (.ldr dr baseR off6) s = .next t ∧ WroteReg dr v u t) ∧
    (∀ u, memRead (instrSite s) a s = .abort u → exec (.ldr dr baseR off6) s = .next u) ∧
    (∀ f, memRead (instrSite s) a s = .stuck f → exec (.ldr dr baseR off6) s = .fault f)

/-- R163: LEA; the address itself, and no memory access, so it completes at every address (90_conflicts.md C1). -/
def Obligations.LeaGivesTheAddressWithoutReading : Prop :=
  ∀ (dr : Reg) (off9 : BitVec 9) (s : State),
    (∀ w, bitsOf w 12 4 = 14 → bitsOf w 9 3 = dr → bitsOf w 0 9 = off9.toNat → decode w = .lea dr off9) ∧
    ∃ v t, exec (.lea dr off9) s = .next t ∧ WroteReg dr v s t ∧ IsWord v (s.pc.toNat + off9.toInt)

/-- R164: ST; a plain write at every address, no flag, no device effect. -/
def Obligations.StStoresAtPcPlusOffset : Prop :=
  ∀ (sr : Reg) (off9 : BitVec 9) (s : State),
    (∀ w, bitsOf w 12 4 = 3 → bitsOf w 9 3 = sr → bitsOf w 0 9 = off9.toNat → decode w = .st sr off9) ∧
    ∃ a t, exec (.st sr off9) s = .next t ∧ IsWord a (s.pc.toNat + off9.toInt) ∧ WroteMem a (readReg sr s) s t

/-- R165: STI; the pointer read passes the keyboard check, the store is a plain write; nothing is stored when the pointer
read fails. -/
def Obligations.StiStoresThroughThePointer : Prop :=
  ∀ (sr : Reg) (off9 : BitVec 9) (s : State) (a : Word), IsWord a (s.pc.toNat + off9.toInt) →
    (∀ w, bitsOf w 12 4 = 11 → bitsOf w 9 3 = sr → bitsOf w 0 9 = off9.toNat → decode w = .sti sr off9) ∧
    (a ≠ Config.kbsrAddr →
      ∃ t, exec (.sti sr off9) s = .next t ∧ WroteMem (rawWord a s) (readReg sr s) s t) ∧
    (∀ p u, memRead (instrSite s) a s = .ok p u →
      ∃ t, exec (.sti sr off9) s = .next t ∧ WroteMem p (readReg sr s) u t) ∧
    (∀ u, memRead (instrSite s) a s = .abort u → exec (.sti sr off9) s = .next u ∧ SameMem s u) ∧
    (∀ f, memRead (instrSite s) a s = .stuck f → exec (.sti sr off9) s = .fault f)

/-- R166: STR. -/
def Obligations.StrStoresAtBasePlusOffset : Prop :=
  ∀ (sr baseR : Reg) (off6 : BitVec 6) (s : State),
    (∀ w, bitsOf w 12 4 = 7 → bitsOf w 9 3 = sr → bitsOf w 6 3 = baseR → bitsOf w 0 6 = off6.toNat →
      decode w = .str sr baseR off6) ∧
    ∃ a t, exec (.str sr baseR off6) s = .next t ∧ IsWord a ((readReg baseR s).toNat + off6.toInt) ∧
      WroteMem a (readReg sr s) s t

/-! ### Control transfer (42_control.md) -/

/-- R190 with its decision table R191: BR is taken exactly when the mask has the bit of the flag that is set; pc is the
only thing that changes. -/
def Obligations.BrIsTakenExactlyOnAMaskedFlag : Prop :=
  ∀ (n z p : Bool) (off9 : BitVec 9) (s : State),
    (∀ w, bitsOf w 12 4 = 0 → bitsOf w 11 1 = n.toNat → bitsOf w 10 1 = z.toNat → bitsOf w 9 1 = p.toNat →
      bitsOf w 0 9 = off9.toNat → decode w = .br n z p off9) ∧
    ∃ t, exec (.br n z p off9) s = .next t ∧ SameData s t ∧ SamePorts s t ∧
      ((n = true ∧ s.cond = .n ∨ z = true ∧ s.cond = .z ∨ p = true ∧ s.cond = .p) →
        IsWord t.pc (s.pc.toNat + off9.toInt)) ∧
      (¬(n = true ∧ s.cond = .n ∨ z = true ∧ s.cond = .z ∨ p = true ∧ s.cond = .p) → t.pc = s.pc)

/-- R192, R193: JMP goes to the register's value; RET is JMP R7, and nothing tells the two apart. -/
def Obligations.JmpGoesToTheRegisterAndRetIsJmpR7 : Prop :=
  ∀ (baseR : Reg) (s : State),
    (∀ w, bitsOf w 12 4 = 12 → bitsOf w 6 3 = baseR → decode w = if baseR = 7 then .ret else .jmp baseR) ∧
    encode .ret = 0xC1C0 ∧
    (∃ t, exec (.jmp baseR) s = .next t ∧ t.pc = readReg baseR s ∧ SameData s t ∧ SamePorts s t) ∧
    (∃ t, exec .ret s = .next t ∧ t.pc = readReg 7 s ∧ SameData s t ∧ SamePorts s t) ∧
    exec .ret s = exec (.jmp 7) s

/-- JSR (42_control.md R196; that it writes no flag is the spec's choice C2, D9, log 7): the return address to R7, then
pc plus the 11-bit offset; the other registers, the flag and memory stay. -/
def Obligations.JsrLinksAndJumpsRelative : Prop :=
  ∀ (off11 : BitVec 11) (s : State),
    (∀ w, bitsOf w 12 4 = 4 → bitsOf w 11 1 = 1 → bitsOf w 0 11 = off11.toNat → decode w = .jsr off11) ∧
    ∃ t, exec (.jsr off11) s = .next t ∧ readReg 7 t = s.pc ∧ SameRegsBut 7 s t ∧
      IsWord t.pc (s.pc.toNat + off11.toInt) ∧ t.cond = s.cond ∧ SameMem s t ∧ SamePorts s t

/-- JSRR (42_control.md R197; no flag: C2, D9; R7 is written before BaseR is read: the spec's choice D10; log 7): the old
value of BaseR, but for JSRR R7, which continues in sequence. -/
def Obligations.JsrrLinksBeforeItReadsTheBase : Prop :=
  ∀ (baseR : Reg) (s : State),
    (∀ w, bitsOf w 12 4 = 4 → bitsOf w 11 1 = 0 → bitsOf w 6 3 = baseR → decode w = .jsrr baseR) ∧
    ∃ t, exec (.jsrr baseR) s = .next t ∧ readReg 7 t = s.pc ∧ SameRegsBut 7 s t ∧
      (baseR ≠ 7 → t.pc = readReg baseR s) ∧ (baseR = 7 → t.pc = s.pc) ∧
      t.cond = s.cond ∧ SameMem s t ∧ SamePorts s t

/-! ### TRAP (43_trap.md) -/

/-- R218 with R210's selection: a word with opcode 1111 runs what its low 8 bits select, whatever bits 11:8 hold; TRAP with a service's
vector is that service; every other vector changes nothing. -/
def Obligations.TrapRunsWhatTheLowByteSelects : Prop :=
  ∀ (s : State) (v : Byte),
    (∀ w, bitsOf w 12 4 = 15 → bitsOf w 0 8 = v.toNat → exec (decode w) s = exec (.trap v) s) ∧
    (v.toNat = 0x20 → exec (.trap v) s = exec .getc s) ∧
    (v.toNat = 0x21 → exec (.trap v) s = exec .out s) ∧
    (v.toNat = 0x22 → exec (.trap v) s = exec .puts s) ∧
    (v.toNat = 0x23 → exec (.trap v) s = exec .inChar s) ∧
    (v.toNat = 0x24 → exec (.trap v) s = exec .putsp s) ∧
    (v.toNat = 0x25 → exec (.trap v) s = exec .halt s) ∧
    (v.toNat < 0x20 ∨ 0x25 < v.toNat → exec (.trap v) s = .next s)

/-- GETC (43_trap.md R211, decisions D13, D14; log 9, 10): a character, zero-extended, to R0 without flag or output; the
end of input and an error abort with vector 0x20; with no answer there is no step. -/
def Obligations.GetcPutsOneCharacterInR0 : Prop :=
  ∀ s : State,
    (∀ c k, NextEvent (.byte c) s.console k →
      ∃ t, exec .getc s = .next t ∧ (readReg 0 t).toNat = c.toNat ∧ SameRegsBut 0 s t ∧ t.cond = s.cond ∧
        t.pc = s.pc ∧ SameMem s t ∧ t.engine = s.engine ∧ t.console = k) ∧
    (∀ k, NextEvent .endOfInput s.console k →
      ∃ t, exec .getc s = .next t ∧ AbortedIo .endOfInput (some 0x20) (s.pc - 1) s.pc t ∧
        SameData s t ∧ t.pc = s.pc ∧ t.console = k) ∧
    (∀ k, NextEvent .error s.console k →
      ∃ t, exec .getc s = .next t ∧ AbortedIo .readError (some 0x20) (s.pc - 1) s.pc t ∧
        SameData s t ∧ t.pc = s.pc ∧ t.console = k) ∧
    (NeverAnswers s.console → exec .getc s = .fault .blockedOnConsole)

/-- R212: OUT writes the byte R0[7:0]; a write error aborts with vector 0x21, takes no event and withdraws nothing. -/
def Obligations.OutWritesTheLowByteOfR0 : Prop :=
  ∀ (s : State) (b : Byte), b.toNat = (readReg 0 s).toNat % 256 →
    (AcceptsWrites 1 s.console →
      ∃ t, exec .out s = .next t ∧ Sent [b] s.console t.console ∧ SameData s t ∧ t.pc = s.pc ∧
        t.engine = s.engine) ∧
    (s.console.failingWrite = some 0 →
      ∃ t, exec .out s = .next t ∧ AbortedIo .writeError (some 0x21) (s.pc - 1) s.pc t ∧ SameData s t ∧
        t.pc = s.pc ∧ t.console.input = s.console.input ∧ s.console.output <+: t.console.output)

/-- PUTS on a string that KBSR_ADDR is no part of (43_trap.md R213, R216): the low bytes of its words, up to the zero word,
leave in order; nothing else changes. -/
def Obligations.PutsWritesTheStringAtR0 : Prop :=
  ∀ (s : State) (str : List Word),
    (∀ w ∈ str, w ≠ 0) →
    (∀ k, (h : k < str.length) → readReg 0 s + BitVec.ofNat 16 k ≠ Config.kbsrAddr ∧
      rawWord (readReg 0 s + BitVec.ofNat 16 k) s = str[k]) →
    readReg 0 s + BitVec.ofNat 16 str.length ≠ Config.kbsrAddr →
    rawWord (readReg 0 s + BitVec.ofNat 16 str.length) s = 0 →
    AcceptsWrites str.length s.console →
    ∃ t, exec .puts s = .next t ∧ Sent (str.map (·.setWidth 8)) s.console t.console ∧ SameData s t ∧
      t.pc = s.pc ∧ t.engine = s.engine

/-- PUTSP on a packed string that KBSR_ADDR is no part of (43_trap.md R215, R216, decision D23): whole words as (low,
high) pairs of nonzero bytes, then a word whose low byte is zero, or whose low byte is the last and whose high byte is
zero; the bytes leave low first. -/
def Obligations.PutspWritesThePackedStringAtR0 : Prop :=
  ∀ (s : State) (pairs : List (Byte × Byte)) (last : Option Byte) (hiEnd : Byte),
    (∀ q ∈ pairs, q.1 ≠ 0 ∧ q.2 ≠ 0) →
    (∀ b, last = some b → b ≠ 0 ∧ hiEnd = 0) →
    (∀ k, (h : k < pairs.length) → readReg 0 s + BitVec.ofNat 16 k ≠ Config.kbsrAddr ∧
      (rawWord (readReg 0 s + BitVec.ofNat 16 k) s).toNat = pairs[k].2.toNat * 256 + pairs[k].1.toNat) →
    readReg 0 s + BitVec.ofNat 16 pairs.length ≠ Config.kbsrAddr →
    (rawWord (readReg 0 s + BitVec.ofNat 16 pairs.length) s).toNat = hiEnd.toNat * 256 + (last.getD 0).toNat →
    AcceptsWrites (2 * pairs.length + last.toList.length) s.console →
    ∃ t, exec .putsp s = .next t ∧
      Sent (pairs.flatMap (fun q => [q.1, q.2]) ++ last.toList) s.console t.console ∧ SameData s t ∧
      t.pc = s.pc ∧ t.engine = s.engine

/-- PUTS follows its loop (43_trap.md R213 with decisions D7 and D22, R219), a string that runs into KBSR_ADDR included:
unless it never ends, it ends as the loop from R0 does, at a zero word, at an abort, or at a read the host never
answers. -/
def Obligations.PutsEndsAsItsLoopDoes : Prop :=
  ∀ s : State, exec .puts s = .fault .serviceNeverEnds ∨
    ∃ r, PutsEnds (serviceSite 0x22 s) (readReg 0 s) s r ∧ exec .puts s = asOutcome r

/-- PUTSP follows its loop (43_trap.md R215 with decisions D7, D22 and D23, R219). -/
def Obligations.PutspEndsAsItsLoopDoes : Prop :=
  ∀ s : State, exec .putsp s = .fault .serviceNeverEnds ∨
    ∃ r, PutspEnds (serviceSite 0x24 s) (readReg 0 s) s r ∧ exec .putsp s = asOutcome r

/-- PUTS and PUTSP are called endless only when they are (43_trap.md R216, decision D22; log 22): where the model gives
them no step for that reason, the loop from R0 has no end, with the answers of the host that the state's console fixes,
which are constant at last (the model's choice: log 19). A host that later answered otherwise is another state. -/
def Obligations.StringServiceCalledEndlessNeverEnds : Prop :=
  ∀ s : State,
    (exec .puts s = .fault .serviceNeverEnds → ¬∃ r, PutsEnds (serviceSite 0x22 s) (readReg 0 s) s r) ∧
    (exec .putsp s = .fault .serviceNeverEnds → ¬∃ r, PutspEnds (serviceSite 0x24 s) (readReg 0 s) s r)

/-- IN (43_trap.md R214, decisions D12 to D16; log 9, 10, 11), for every prompt: the prompt, one character, its echo, R0
and the flag; each way it can fail aborts with vector 0x23 after what was already sent. Where the host refuses write n, that
is the prompt's, or, n being the prompt's length, the echo; that the refused byte is not sent is the model's choice
(log 24). -/
def Obligations.InPromptsReadsEchoesAndSetsR0 : Prop :=
  ∀ s : State,
    (∀ c k, NextEvent (.byte c) s.console k → AcceptsWrites (Config.inPrompt.length + 1) s.console →
      ∃ t v, exec .inChar s = .next t ∧ v.toNat = c.toNat ∧ readReg 0 t = v ∧ FlagFor v t.cond ∧ SameRegsBut 0 s t ∧
        t.pc = s.pc ∧ SameMem s t ∧ t.engine = s.engine ∧ Sent (Config.inPrompt ++ [c]) k t.console) ∧
    (∀ n c k, s.console.failingWrite = some n →
      (n < Config.inPrompt.length ∨ n = Config.inPrompt.length ∧ NextEvent (.byte c) s.console k) →
      ∃ t, exec .inChar s = .next t ∧ AbortedIo .writeError (some 0x23) (s.pc - 1) s.pc t ∧ SameData s t ∧
        t.pc = s.pc ∧ t.console.output = s.console.output ++ Config.inPrompt.take n ∧
        (n < Config.inPrompt.length → t.console.input = s.console.input) ∧
        (n = Config.inPrompt.length → t.console.input = k.input)) ∧
    (∀ k, NextEvent .endOfInput s.console k → AcceptsWrites Config.inPrompt.length s.console →
      ∃ t, exec .inChar s = .next t ∧ AbortedIo .endOfInput (some 0x23) (s.pc - 1) s.pc t ∧ SameData s t ∧
        t.pc = s.pc ∧ Sent Config.inPrompt k t.console) ∧
    (∀ k, NextEvent .error s.console k → AcceptsWrites Config.inPrompt.length s.console →
      ∃ t, exec .inChar s = .next t ∧ AbortedIo .readError (some 0x23) (s.pc - 1) s.pc t ∧ SameData s t ∧
        t.pc = s.pc ∧ Sent Config.inPrompt k t.console) ∧
    (NeverAnswers s.console → AcceptsWrites Config.inPrompt.length s.console →
      exec .inChar s = .fault .blockedOnConsole)

/-- R217: HALT writes the notice, whatever it is (OPEN: D17, log 11), and enters HALTED with pc at the next address; where
the host refuses write n, the run ends in ABORTED instead if the notice reaches that write, with the bytes before it sent. -/
def Obligations.HaltWritesTheNoticeAndHalts : Prop :=
  ∀ s : State,
    (AcceptsWrites Config.haltNotice.length s.console →
      ∃ t, exec .halt s = .next t ∧ Halted t ∧ Sent Config.haltNotice s.console t.console ∧ SameData s t ∧
        t.pc = s.pc) ∧
    (∀ n, s.console.failingWrite = some n →
      ∃ t, exec .halt s = .next t ∧ SameData s t ∧ t.pc = s.pc ∧ t.console.input = s.console.input ∧
        (s.console.output ++ Config.haltNotice.take n) <+: t.console.output ∧
        if n < Config.haltNotice.length then AbortedIo .writeError (some 0x25) (s.pc - 1) s.pc t else Halted t)

/-! ### Reserved opcodes (44_reserved.md) -/

/-- RTI and RES (44_reserved.md R240, R241; NoOp is the spec's choice C3, D8, log 6): whatever bits 11:0 hold, nothing
changes. -/
def Obligations.ReservedOpcodesDoNothing : Prop :=
  ∀ (w : Word) (s : State),
    (bitsOf w 12 4 = 8 → decode w = .rti) ∧ (bitsOf w 12 4 = 13 → decode w = .res) ∧
    exec .rti s = .next s ∧ exec .res s = .next s

/-- The other value of RESERVED_POLICY (44_reserved.md R242, D8, log 6): under Abort a reserved opcode would end the run,
recording the opcode and the instruction's address, with every other part of the state as it is. -/
def Obligations.ReservedPolicyAbortWouldRecordOpcodeAndAddress : Prop :=
  ∀ (opcode : BitVec 4) (s : State),
    Config.reservedPolicy = .noOp ∧ reservedOp .noOp opcode s = s ∧
    (reservedOp .abort opcode s).engine = .aborted (.reservedOpcode opcode) (s.pc - 1) ∧
    SameData s (reservedOp .abort opcode s) ∧ (reservedOp .abort opcode s).pc = s.pc ∧
    (reservedOp .abort opcode s).console = s.console

/-! ### Rules about every instruction -/

/-- The spec derives (10_state.md R33): the only register an instruction writes is the one its rule names. -/
def Obligations.OnlyTheNamedRegisterIsWritten : Prop :=
  ∀ (i : Instr) (s t : State) (r : Reg), exec i s = .next t → writtenReg i ≠ some r → readReg r t = readReg r s

/-- The list of 10_state.md R39 (its JSR and IN entries are decisions D9 and D12; log 7, 9): an instruction outside it
leaves cond alone; one inside it that completes sets cond from the register it wrote. -/
def Obligations.FlagsFollowTheFlagSettingWrites : Prop :=
  ∀ (i : Instr) (s t : State), exec i s = .next t →
    (setsFlags i = false → t.cond = s.cond) ∧
    (setsFlags i = true → s.engine = .running → t.engine = .running →
      ∃ r, writtenReg i = some r ∧ FlagFor (readReg r t) t.cond)

/-- The list of 10_state.md R35: only BR, JMP, JSR and JSRR (RET is a JMP) write pc beyond the fetch increment. -/
def Obligations.OnlyControlTransfersWritePc : Prop :=
  ∀ (i : Instr) (s t : State), exec i s = .next t → writesPc i = false → t.pc = s.pc

/-- The spec derives (10_state.md R40): no instruction but BR reads cond. Two states that differ only in cond go to two
states that differ at most in cond, or stop alike. -/
def Obligations.OnlyBrReadsCond : Prop :=
  ∀ (i : Instr) (s : State) (c : Cond), (∀ n z p o, i ≠ .br n z p o) →
    (∀ t, exec i s = .next t →
      ∃ c', exec i { s with cond := c } = .next { t with cond := c' } ∧ (setsFlags i = false → c' = c)) ∧
    (∀ f, exec i s = .fault f → exec i { s with cond := c } = .fault f)

/-- The clause of 10_state.md R44: HALTED is entered only by TRAP HALT. -/
def Obligations.HaltedIsEnteredOnlyByHalt : Prop :=
  ∀ s t : State, step s = .next t → Halted t →
    ∃ w u, memRead (fetchSite s) s.pc s = .ok w u ∧ bitsOf w 12 4 = 15 ∧ bitsOf w 0 8 = 0x25

/-- 20_memory.md R64, R66 over every instruction: away from the two keyboard words, memory changes only at the address an
instruction stores to. -/
def Obligations.OnlyStoresAndTheKeyboardChangeMemory : Prop :=
  ∀ (i : Instr) (s t : State) (a : Word), exec i s = .next t →
    a ≠ Config.kbsrAddr → a ≠ Config.kbdrAddr → ¬StoresTo i s a → rawWord a t = rawWord a s

/-- 43_trap.md R219 over every instruction: output already sent remains; and no instruction outside the services OUT,
PUTS, IN, PUTSP and HALT sends anything. -/
def Obligations.OutputOnlyGrowsAndOnlyInServices : Prop :=
  ∀ (i : Instr) (s t : State), exec i s = .next t →
    (∃ bs, t.console.output = s.console.output ++ bs) ∧
    (i ∉ [.out, .puts, .inChar, .putsp, .halt] → (∀ v, i ≠ .trap v) →
      t.console.output = s.console.output ∧ t.console.failingWrite = s.console.failingWrite)

/-- 60_exceptions.md R252 over every instruction: when an instruction of a RUNNING engine aborts, no register, no flag and
no pc write of it has happened. -/
def Obligations.AbortedInstructionWritesNoRegister : Prop :=
  ∀ (i : Instr) (s t : State), s.engine = .running → exec i s = .next t → Aborted t →
    SameRegs s t ∧ t.cond = s.cond ∧ t.pc = s.pc

/-- Writing a byte string at once is writing its bytes one after another up to the first failure (43_trap.md R214, R217:
"for b in ..."). -/
def Obligations.WritingAStringIsWritingItsBytesInOrder : Prop :=
  ∀ (site : Site) (bs : List Byte) (s : State),
    consoleWriteAll site bs s =
      bs.foldl (fun r b => r.bind fun _ s1 => consoleWrite site b s1) (.ok () s)

/-- Nothing stops a run but the host's silence and a string that never ends (30_encoding.md R112, 60_exceptions.md R270,
43_trap.md R216): every instruction is given a next state, ordinary data never ends a run. -/
def Obligations.EveryInstructionCompletesUnlessBlockedOrEndless : Prop :=
  ∀ (i : Instr) (s : State),
    (∃ t, exec i s = .next t) ∨
    (exec i s = .fault .blockedOnConsole ∧ s.console.tail = none) ∨
    (exec i s = .fault .serviceNeverEnds ∧ (i ∈ [.puts, .putsp, .trap 0x22, .trap 0x24]))
end

