-- ==== Sys2Proof/Laws/Decode.lean ====
section
/-! SUPPORT. The opcode map is one to one, and small facts of the decoder. -/

namespace Sys2Proof.Laws

theorem Opcode.ofCode_code (o : Opcode) : Opcode.ofCode o.code = o := by cases o <;> rfl

theorem Opcode.code_ofCode (c : BitVec 4) : (Opcode.ofCode c).code = c := by
  revert c
  decide

theorem decodeTrap_of_not_service {v : Byte} (h : isServiceVector v = false) : decodeTrap v = .trap v := by
  have hne : ∀ k : Byte, isServiceVector k = true → v ≠ k := by
    rintro k hk rfl
    rw [h] at hk
    cases hk
  unfold decodeTrap
  rw [if_neg (hne _ (by decide)), if_neg (hne _ (by decide)), if_neg (hne _ (by decide)), if_neg (hne _ (by decide)),
    if_neg (hne _ (by decide)), if_neg (hne _ (by decide))]

theorem decodeJmp_of_ne {baseR : Reg} (h : baseR ≠ 7) : decodeJmp baseR = .jmp baseR := by
  simp [decodeJmp, h]

end Sys2Proof.Laws
end

