-- ==== Sys2Proof/Laws/Memory.lean ====
section
/-! SUPPORT. The memory array: reading after a write, and that every write keeps the canonical form. -/

namespace Sys2Proof.Machine

theorem Memory.get_of_not_listed {m : Memory} {a : Word} (h : ∀ c ∈ m, c.1 ≠ a.toNat) : m.get a = 0 := by
  induction m with
  | nil => rfl
  | cons c rest ih =>
    have hne := h c (by simp)
    simp only [Memory.get, if_neg hne]
    exact ih fun d hd => h d (by simp [hd])

theorem Memory.not_listed_erase (m : Memory) (a : Word) : ∀ c ∈ m.erase a, c.1 ≠ a.toNat := by
  intro c hc
  simpa using (List.mem_filter.mp hc).2

theorem Memory.get_erase_self (m : Memory) (a : Word) : (m.erase a).get a = 0 :=
  Memory.get_of_not_listed (m.not_listed_erase a)

theorem Memory.get_erase_ne (m : Memory) {a b : Word} (h : b ≠ a) : (m.erase a).get b = m.get b := by
  have hn : b.toNat ≠ a.toNat := fun e => h (BitVec.eq_of_toNat_eq e)
  induction m with
  | nil => rfl
  | cons c rest ih =>
    by_cases hc : c.1 = a.toNat
    · have he : Memory.erase (c :: rest) a = Memory.erase rest a := by simp [Memory.erase, hc]
      rw [he, ih, Memory.get, if_neg (fun e => hn (e.symm.trans hc))]
    · have he : Memory.erase (c :: rest) a = c :: Memory.erase rest a := by simp [Memory.erase, hc]
      rw [he]
      simp only [Memory.get, ih]

theorem Memory.get_insert (m : Memory) (a b v : Word) (h : ∀ c ∈ m, c.1 ≠ a.toNat) :
    (m.insert a.toNat v).get b = if b = a then v else m.get b := by
  have hk : a.toNat = b.toNat ↔ b = a :=
    ⟨fun e => (BitVec.eq_of_toNat_eq e).symm, fun e => by rw [e]⟩
  induction m with
  | nil => simp only [Memory.insert, Memory.get, hk]
  | cons c rest ih =>
    by_cases hlt : a.toNat < c.1
    · simp only [Memory.insert, if_pos hlt, Memory.get, hk]
    · have hc : c.1 ≠ a.toNat := h c (by simp)
      have hr := ih fun d hd => h d (by simp [hd])
      simp only [Memory.insert, if_neg hlt, Memory.get, hr]
      by_cases hcb : c.1 = b.toNat
      · have hba : b ≠ a := fun e => hc (by rw [hcb, e])
        simp [hcb, hba]
      · simp [hcb]

/-- A read after a write: the word written at its address, what stood there before at every other address (R64). -/
theorem Memory.get_set (m : Memory) (a b v : Word) :
    (m.set a v).get b = if b = a then v else m.get b := by
  by_cases hv : v = 0
  · subst hv
    simp only [Memory.set, if_true]
    by_cases hb : b = a
    · subst hb
      simp [Memory.get_erase_self]
    · simp [hb, Memory.get_erase_ne m hb]
  · simp only [Memory.set, if_neg hv, Memory.get_insert _ _ _ _ (m.not_listed_erase a)]
    by_cases hb : b = a
    · simp [hb]
    · simp [hb, Memory.get_erase_ne m hb]

@[simp] theorem Memory.get_set_self (m : Memory) (a v : Word) : (m.set a v).get a = v := by
  simp [Memory.get_set]

theorem Memory.get_set_ne (m : Memory) {a b : Word} (h : b ≠ a) (v : Word) :
    (m.set a v).get b = m.get b := by
  simp [Memory.get_set, h]

/-! ### The canonical form -/

theorem Memory.erase_wf {m : Memory} (h : m.wf) (a : Word) : (m.erase a).wf :=
  ⟨h.1.filter _, fun c hc => h.2 c (List.mem_filter.mp hc).1⟩

theorem Memory.mem_insert {m : Memory} {k : Nat} {v : Word} {c : Nat × Word} :
    c ∈ m.insert k v ↔ c = (k, v) ∨ c ∈ m := by
  induction m with
  | nil => simp [Memory.insert]
  | cons d rest ih =>
    by_cases hlt : k < d.1
    · simp [Memory.insert, hlt]
    · simp only [Memory.insert, if_neg hlt, List.mem_cons, ih]
      tauto

theorem Memory.insert_wf {m : Memory} (h : m.wf) {k : Nat} {v : Word} (hk : k < 65536) (hv : v ≠ 0)
    (hnew : ∀ c ∈ m, c.1 ≠ k) : (m.insert k v).wf := by
  refine ⟨?_, fun c hc => ?_⟩
  · obtain ⟨hp, -⟩ := h
    induction m with
    | nil => simp [Memory.insert]
    | cons d rest ih =>
      obtain ⟨hd, hrest⟩ := List.pairwise_cons.mp hp
      by_cases hlt : k < d.1
      · simp only [Memory.insert, if_pos hlt]
        refine List.pairwise_cons.mpr ⟨fun c hc => ?_, hp⟩
        rcases List.mem_cons.mp hc with rfl | hc
        · exact hlt
        · exact lt_trans hlt (hd c hc)
      · simp only [Memory.insert, if_neg hlt]
        refine List.pairwise_cons.mpr ⟨fun c hc => ?_, ih (fun c hc => hnew c (by simp [hc])) hrest⟩
        rcases Memory.mem_insert.mp hc with rfl | hc
        · have := hnew d (by simp)
          show d.1 < k
          omega
        · exact hd c hc
  · rcases Memory.mem_insert.mp hc with rfl | hc
    · exact ⟨hk, hv⟩
    · exact h.2 c hc

/-- Every write keeps the canonical form. -/
theorem Memory.set_wf {m : Memory} (h : m.wf) (a v : Word) : (m.set a v).wf := by
  by_cases hv : v = 0
  · simpa [Memory.set, hv] using Memory.erase_wf h a
  · simp only [Memory.set, if_neg hv]
    exact Memory.insert_wf (Memory.erase_wf h a) a.isLt hv (m.not_listed_erase a)

end Sys2Proof.Machine
end

