-- ==== Sys2Proof/Laws/State.lean ====
section
/-! SUPPORT. What each named update does to each field of the state: one lemma a field and update, and what the readers
read after an update. -/

namespace Sys2Proof.Machine

variable (s : State)

/-! ### writeReg -/

@[simp] theorem writeReg_regs (r : Reg) (v : Word) : (writeReg r v s).regs = s.regs.set r v := rfl

@[simp] theorem writeReg_pc (r : Reg) (v : Word) : (writeReg r v s).pc = s.pc := rfl

@[simp] theorem writeReg_cond (r : Reg) (v : Word) : (writeReg r v s).cond = s.cond := rfl

@[simp] theorem writeReg_mem (r : Reg) (v : Word) : (writeReg r v s).mem = s.mem := rfl

@[simp] theorem writeReg_engine (r : Reg) (v : Word) : (writeReg r v s).engine = s.engine := rfl

@[simp] theorem writeReg_console (r : Reg) (v : Word) : (writeReg r v s).console = s.console := rfl

/-! ### setPc -/

@[simp] theorem setPc_regs (target : Word) : (setPc target s).regs = s.regs := rfl

@[simp] theorem setPc_pc (target : Word) : (setPc target s).pc = target := rfl

@[simp] theorem setPc_cond (target : Word) : (setPc target s).cond = s.cond := rfl

@[simp] theorem setPc_mem (target : Word) : (setPc target s).mem = s.mem := rfl

@[simp] theorem setPc_engine (target : Word) : (setPc target s).engine = s.engine := rfl

@[simp] theorem setPc_console (target : Word) : (setPc target s).console = s.console := rfl

/-! ### setcc -/

@[simp] theorem setcc_regs (v : Word) : (setcc v s).regs = s.regs := rfl

@[simp] theorem setcc_pc (v : Word) : (setcc v s).pc = s.pc := rfl

@[simp] theorem setcc_cond (v : Word) : (setcc v s).cond = condOf v := rfl

@[simp] theorem setcc_mem (v : Word) : (setcc v s).mem = s.mem := rfl

@[simp] theorem setcc_engine (v : Word) : (setcc v s).engine = s.engine := rfl

@[simp] theorem setcc_console (v : Word) : (setcc v s).console = s.console := rfl

/-! ### memWrite -/

@[simp] theorem memWrite_regs (a v : Word) : (memWrite a v s).regs = s.regs := rfl

@[simp] theorem memWrite_pc (a v : Word) : (memWrite a v s).pc = s.pc := rfl

@[simp] theorem memWrite_cond (a v : Word) : (memWrite a v s).cond = s.cond := rfl

@[simp] theorem memWrite_mem (a v : Word) : (memWrite a v s).mem = s.mem.set a v := rfl

@[simp] theorem memWrite_engine (a v : Word) : (memWrite a v s).engine = s.engine := rfl

@[simp] theorem memWrite_console (a v : Word) : (memWrite a v s).console = s.console := rfl

/-! ### setEngine -/

@[simp] theorem setEngine_regs (e : EngineState) : (setEngine e s).regs = s.regs := rfl

@[simp] theorem setEngine_pc (e : EngineState) : (setEngine e s).pc = s.pc := rfl

@[simp] theorem setEngine_cond (e : EngineState) : (setEngine e s).cond = s.cond := rfl

@[simp] theorem setEngine_mem (e : EngineState) : (setEngine e s).mem = s.mem := rfl

@[simp] theorem setEngine_engine (e : EngineState) : (setEngine e s).engine = e := rfl

@[simp] theorem setEngine_console (e : EngineState) : (setEngine e s).console = s.console := rfl

/-! ### setConsole -/

@[simp] theorem setConsole_regs (c : Console) : (setConsole c s).regs = s.regs := rfl

@[simp] theorem setConsole_pc (c : Console) : (setConsole c s).pc = s.pc := rfl

@[simp] theorem setConsole_cond (c : Console) : (setConsole c s).cond = s.cond := rfl

@[simp] theorem setConsole_mem (c : Console) : (setConsole c s).mem = s.mem := rfl

@[simp] theorem setConsole_engine (c : Console) : (setConsole c s).engine = s.engine := rfl

@[simp] theorem setConsole_console (c : Console) : (setConsole c s).console = c := rfl

/-! ### writeRegCC is a register write and setcc -/

@[simp] theorem writeRegCC_regs (r : Reg) (v : Word) : (writeRegCC r v s).regs = s.regs.set r v := rfl

@[simp] theorem writeRegCC_pc (r : Reg) (v : Word) : (writeRegCC r v s).pc = s.pc := rfl

@[simp] theorem writeRegCC_cond (r : Reg) (v : Word) : (writeRegCC r v s).cond = condOf v := rfl

@[simp] theorem writeRegCC_mem (r : Reg) (v : Word) : (writeRegCC r v s).mem = s.mem := rfl

@[simp] theorem writeRegCC_engine (r : Reg) (v : Word) : (writeRegCC r v s).engine = s.engine := rfl

@[simp] theorem writeRegCC_console (r : Reg) (v : Word) : (writeRegCC r v s).console = s.console := rfl

/-! ### Readers after updates -/

theorem readReg_writeReg (q r : Reg) (v : Word) :
    readReg q (writeReg r v s) = if r = q then v else readReg q s := by
  simp [readReg, Vector.getElem_set, Fin.ext_iff]

@[simp] theorem readReg_writeReg_self (r : Reg) (v : Word) : readReg r (writeReg r v s) = v := by
  simp [readReg_writeReg]

theorem readReg_writeReg_ne {q r : Reg} (h : q ≠ r) (v : Word) :
    readReg q (writeReg r v s) = readReg q s := by
  simp [readReg_writeReg, Ne.symm h]

@[simp] theorem readReg_setPc (q : Reg) (target : Word) : readReg q (setPc target s) = readReg q s := rfl

@[simp] theorem readReg_setcc (q : Reg) (v : Word) : readReg q (setcc v s) = readReg q s := rfl

@[simp] theorem readReg_memWrite (q : Reg) (a v : Word) : readReg q (memWrite a v s) = readReg q s := rfl

@[simp] theorem readReg_setEngine (q : Reg) (e : EngineState) : readReg q (setEngine e s) = readReg q s := rfl

@[simp] theorem readReg_setConsole (q : Reg) (c : Console) : readReg q (setConsole c s) = readReg q s := rfl

theorem readReg_writeRegCC (q r : Reg) (v : Word) :
    readReg q (writeRegCC r v s) = readReg q (writeReg r v s) := rfl

@[simp] theorem rawWord_writeReg (a : Word) (r : Reg) (v : Word) :
    rawWord a (writeReg r v s) = rawWord a s := rfl

@[simp] theorem rawWord_writeRegCC (a : Word) (r : Reg) (v : Word) :
    rawWord a (writeRegCC r v s) = rawWord a s := rfl

@[simp] theorem rawWord_setPc (a target : Word) : rawWord a (setPc target s) = rawWord a s := rfl

@[simp] theorem rawWord_setcc (a v : Word) : rawWord a (setcc v s) = rawWord a s := rfl

@[simp] theorem rawWord_setEngine (a : Word) (e : EngineState) :
    rawWord a (setEngine e s) = rawWord a s := rfl

@[simp] theorem rawWord_setConsole (a : Word) (c : Console) :
    rawWord a (setConsole c s) = rawWord a s := rfl

end Sys2Proof.Machine
end

