-- ==== Sys2Proof/Laws/Ops.lean ====
section
/-! SUPPORT. For each shared operation, once, everything it can answer and what it leaves alone. -/

namespace Sys2Proof.Machine

variable {s t : State}

theorem rawWord_memWrite (a b v : Word) (s : State) :
    rawWord b (memWrite a v s) = if b = a then v else rawWord b s := Memory.get_set _ _ _ _

/-! ### Sequencing -/

@[simp] theorem Result.bind_ok {α β : Type} (v : α) (s : State) (k : α → State → Result β) :
    (Result.ok v s).bind k = k v s := rfl

@[simp] theorem Result.bind_abort {α β : Type} (s : State) (k : α → State → Result β) :
    (Result.abort s).bind k = .abort s := rfl

@[simp] theorem Result.bind_stuck {α β : Type} (f : Fault) (k : α → State → Result β) :
    (Result.stuck f).bind k = .stuck f := rfl

@[simp] theorem Result.thenDo_ok {α : Type} (v : α) (s : State) (k : α → State → Outcome) :
    (Result.ok v s).thenDo k = k v s := rfl

@[simp] theorem Result.thenDo_abort {α : Type} (s : State) (k : α → State → Outcome) :
    (Result.abort s).thenDo k = .next s := rfl

@[simp] theorem Result.thenDo_stuck {α : Type} (f : Fault) (k : α → State → Outcome) :
    (Result.stuck f).thenDo k = .fault f := rfl

/-- A continued operation goes on exactly when both parts do. -/
theorem Result.bind_eq_ok {α β : Type} {r : Result α} {k : α → State → Result β} {v : β} :
    r.bind k = .ok v t ↔ ∃ u s1, r = .ok u s1 ∧ k u s1 = .ok v t := by
  cases r <;> simp

/-- A continued operation aborts where its first part does, or where its second part does. -/
theorem Result.bind_eq_abort {α β : Type} {r : Result α} {k : α → State → Result β} :
    r.bind k = .abort t ↔ r = .abort t ∨ ∃ u s1, r = .ok u s1 ∧ k u s1 = .abort t := by
  cases r <;> simp

/-- What a next state of an instruction is made of. -/
theorem Result.thenDo_eq_next {α : Type} {r : Result α} {k : α → State → Outcome} :
    r.thenDo k = .next t ↔ r = .abort t ∨ ∃ v s1, r = .ok v s1 ∧ k v s1 = .next t := by
  cases r <;> simp

/-! ### Raising an abort -/

@[simp] theorem raiseIo_engine (site : Site) (kind : IoKind) (s : State) :
    (raiseIo site kind s).engine = .aborted (.ioFailure kind site.vector s.pc) site.ia := rfl

@[simp] theorem raiseIo_regs (site : Site) (kind : IoKind) (s : State) : (raiseIo site kind s).regs = s.regs := rfl

@[simp] theorem raiseIo_pc (site : Site) (kind : IoKind) (s : State) : (raiseIo site kind s).pc = s.pc := rfl

@[simp] theorem raiseIo_cond (site : Site) (kind : IoKind) (s : State) : (raiseIo site kind s).cond = s.cond := rfl

@[simp] theorem raiseIo_mem (site : Site) (kind : IoKind) (s : State) : (raiseIo site kind s).mem = s.mem := rfl

@[simp] theorem raiseIo_console (site : Site) (kind : IoKind) (s : State) :
    (raiseIo site kind s).console = s.console := rfl

/-! ### The console -/

/-- A console read that answers changes the console's input and nothing else. -/
theorem consoleRead_ok {e : ConsoleEvent} (h : consoleRead s = .ok e t) :
    t = setConsole t.console s ∧
      ((s.console.input = e :: t.console.input ∧ t.console = { s.console with input := t.console.input }) ∨
        (s.console.input = [] ∧ s.console.tail = some e ∧ t = s)) := by
  unfold consoleRead at h
  split at h
  · next e' rest hi =>
    cases h
    exact ⟨rfl, .inl ⟨hi, rfl⟩⟩
  · next hi =>
    split at h
    · next e' ht =>
      cases h
      exact ⟨rfl, .inr ⟨hi, ht, rfl⟩⟩
    · cases h

/-- A console read never aborts by itself: its caller does. -/
theorem consoleRead_ne_abort : consoleRead s ≠ .abort t := by
  unfold consoleRead
  split
  · simp
  · split <;> simp

theorem consoleRead_stuck {f : Fault} (h : consoleRead s = .stuck f) :
    f = .blockedOnConsole ∧ s.console.input = [] ∧ s.console.tail = none := by
  unfold consoleRead at h
  split at h
  · cases h
  · next hi =>
    split at h
    · cases h
    · next ht =>
      cases h
      exact ⟨rfl, hi, ht⟩

/-- A console write that is accepted changes the console's output and count and nothing else. -/
theorem consoleWrite_ok {site : Site} {b : Byte} {u : Unit} (h : consoleWrite site b s = .ok u t) :
    t = setConsole t.console s ∧ t.console.input = s.console.input ∧ t.console.tail = s.console.tail ∧
      t.console.output = s.console.output ++ [b] := by
  unfold consoleWrite at h
  split at h <;> cases h
  · exact ⟨rfl, rfl, rfl, rfl⟩
  · exact ⟨rfl, rfl, rfl, rfl⟩

theorem consoleWrite_abort {site : Site} {b : Byte} (h : consoleWrite site b s = .abort t) :
    t = raiseIo site .writeError s ∧ s.console.failingWrite = some 0 := by
  unfold consoleWrite at h
  split at h <;> cases h
  next hf => exact ⟨rfl, hf⟩

theorem consoleWrite_ne_stuck {site : Site} {b : Byte} {f : Fault} : consoleWrite site b s ≠ .stuck f := by
  unfold consoleWrite
  split <;> simp

/-- Writing a list that is accepted whole changes the console's output and count and nothing else. -/
theorem consoleWriteAll_ok {site : Site} {bs : List Byte} {u : Unit} (h : consoleWriteAll site bs s = .ok u t) :
    t = setConsole t.console s ∧ t.console.input = s.console.input ∧ t.console.tail = s.console.tail ∧
      t.console.output = s.console.output ++ bs := by
  unfold consoleWriteAll at h
  split at h
  · cases h
    exact ⟨rfl, rfl, rfl, rfl⟩
  · split at h <;> cases h
    exact ⟨rfl, rfl, rfl, rfl⟩

theorem consoleWriteAll_abort {site : Site} {bs : List Byte} (h : consoleWriteAll site bs s = .abort t) :
    ∃ c, t = raiseIo site .writeError (setConsole c s) := by
  unfold consoleWriteAll at h
  split at h
  · cases h
  · split at h <;> cases h
    exact ⟨_, rfl⟩

theorem consoleWriteAll_ne_stuck {site : Site} {bs : List Byte} {f : Fault} :
    consoleWriteAll site bs s ≠ .stuck f := by
  unfold consoleWriteAll
  split
  · simp
  · split <;> simp

/-! ### The memory interface -/

/-- A read away from KBSR_ADDR is the raw word and changes nothing (R63, R68). -/
theorem memRead_plain {a : Word} (h : a ≠ Config.kbsrAddr) (site : Site) (s : State) :
    memRead site a s = .ok (rawWord a s) s := by
  simp [memRead, h]

/-- What a read that goes on can have done: nothing; taken a character; or taken the end of input. -/
theorem memRead_ok {site : Site} {a v : Word} (h : memRead site a s = .ok v t) :
    v = rawWord a t ∧
      ((a ≠ Config.kbsrAddr ∧ t = s) ∨
        (a = Config.kbsrAddr ∧ ∃ e s1, consoleRead s = .ok e s1 ∧
          ((∃ c, e = .byte c ∧ t = keyboardTakes c s1) ∨ (e = .endOfInput ∧ t = s1)))) := by
  unfold memRead at h
  split at h
  · next ha =>
    obtain ⟨e, s1, hr, hk⟩ := Result.bind_eq_ok.mp h
    cases e <;> cases hk
    · exact ⟨rfl, .inr ⟨ha, _, _, hr, .inl ⟨_, rfl, rfl⟩⟩⟩
    · exact ⟨rfl, .inr ⟨ha, _, _, hr, .inr ⟨rfl, rfl⟩⟩⟩
  · next ha =>
    cases h
    exact ⟨rfl, .inl ⟨ha, rfl⟩⟩

theorem memRead_abort {site : Site} {a : Word} (h : memRead site a s = .abort t) :
    a = Config.kbsrAddr ∧ ∃ s1, consoleRead s = .ok .error s1 ∧ t = raiseIo site .readError s1 := by
  unfold memRead at h
  split at h
  · next ha =>
    rcases Result.bind_eq_abort.mp h with hr | ⟨e, s1, hr, hk⟩
    · exact absurd hr consoleRead_ne_abort
    · cases e <;> cases hk
      exact ⟨ha, _, hr, rfl⟩
  · cases h

/-- A read that goes on leaves the registers, pc, the flag and the engine state alone (R33, R39). -/
theorem memRead_ok_frame {site : Site} {a v : Word} (h : memRead site a s = .ok v t) :
    t.regs = s.regs ∧ t.pc = s.pc ∧ t.cond = s.cond ∧ t.engine = s.engine := by
  obtain ⟨-, ⟨-, rfl⟩ | ⟨-, e, s1, hr, hc⟩⟩ := memRead_ok h
  · exact ⟨rfl, rfl, rfl, rfl⟩
  · rw [(consoleRead_ok hr).1] at hc
    obtain ⟨c, -, rfl⟩ | ⟨-, rfl⟩ := hc <;> exact ⟨rfl, rfl, rfl, rfl⟩

/-- A read keeps the memory's canonical form. -/
theorem memRead_ok_wf {site : Site} {a v : Word} (h : memRead site a s = .ok v t) (hm : s.mem.wf) : t.mem.wf := by
  obtain ⟨-, ⟨-, rfl⟩ | ⟨-, e, s1, hr, hc⟩⟩ := memRead_ok h
  · exact hm
  · rw [(consoleRead_ok hr).1] at hc
    obtain ⟨c, -, rfl⟩ | ⟨-, rfl⟩ := hc
    · exact Memory.set_wf (Memory.set_wf hm _ _) _ _
    · exact hm

/-- A fetch that goes on is its read and the increment of pc (R100). -/
theorem fetch_ok {w : Word} (h : fetch s = .ok w t) :
    ∃ s1, memRead (fetchSite s) s.pc s = .ok w s1 ∧ t = setPc (s.pc + 1) s1 := by
  obtain ⟨u, s1, hr, hk⟩ := Result.bind_eq_ok.mp h
  cases hk
  exact ⟨s1, hr, by rw [(memRead_ok_frame hr).2.1]⟩

end Sys2Proof.Machine
end

