-- ==== Sys2Proof/Laws/Io.lean ====
section
/-! SUPPORT. What console and memory traffic can do to the state, said once: it changes the console port and the two
keyboard words and nothing else, and where it aborts it raises an I/O failure after such a change. -/

namespace Sys2Proof.Machine

variable {s t u : State} {site : Site}

/-- From s to t only console and keyboard traffic happened. -/
structure IoOnly (s t : State) : Prop where
  regs : t.regs = s.regs
  pc : t.pc = s.pc
  cond : t.cond = s.cond
  engine : t.engine = s.engine
  wf : s.mem.wf → t.mem.wf
  mem : ∀ a, a ≠ Config.kbsrAddr → a ≠ Config.kbdrAddr → rawWord a t = rawWord a s
  output : ∃ bs, t.console.output = s.console.output ++ bs
  tail : t.console.tail = s.console.tail

theorem IoOnly.refl (s : State) : IoOnly s s :=
  ⟨rfl, rfl, rfl, rfl, id, fun _ _ _ => rfl, ⟨[], by simp⟩, rfl⟩

theorem IoOnly.trans (h : IoOnly s t) (g : IoOnly t u) : IoOnly s u := by
  obtain ⟨x, hx⟩ := h.output
  obtain ⟨y, hy⟩ := g.output
  exact ⟨g.regs.trans h.regs, g.pc.trans h.pc, g.cond.trans h.cond, g.engine.trans h.engine, g.wf ∘ h.wf,
    fun a p q => (g.mem a p q).trans (h.mem a p q), ⟨x ++ y, by rw [hy, hx, List.append_assoc]⟩,
    g.tail.trans h.tail⟩

theorem IoOnly.of_console {c : Console} {bs : List Byte} (h : c.output = s.console.output ++ bs)
    (ht : c.tail = s.console.tail) : IoOnly s (setConsole c s) :=
  ⟨rfl, rfl, rfl, rfl, id, fun _ _ _ => rfl, ⟨bs, h⟩, ht⟩

theorem IoOnly.keyboardTakes (c : Byte) (s : State) : IoOnly s (keyboardTakes c s) :=
  ⟨rfl, rfl, rfl, rfl, fun h => Memory.set_wf (Memory.set_wf h _ _) _ _,
    fun a h1 h2 => by simp [Machine.keyboardTakes, rawWord_memWrite, h1, h2], ⟨[], by simp [Machine.keyboardTakes]⟩, rfl⟩

theorem IoOnly.instrSite_eq (h : IoOnly s t) : instrSite t = instrSite s := by simp [instrSite, h.pc]

theorem IoOnly.serviceSite_eq (h : IoOnly s t) (v : Byte) : serviceSite v t = serviceSite v s := by
  simp [serviceSite, h.pc]

/-- From s to t the instruction at `site` did console and keyboard traffic and then raised an I/O failure of a kind in P. -/
def IoAbort (P : IoKind → Prop) (site : Site) (s t : State) : Prop :=
  ∃ kind s1, P kind ∧ IoOnly s s1 ∧ t = raiseIo site kind s1

theorem IoAbort.after {P : IoKind → Prop} (h : IoOnly s t) (g : IoAbort P site t u) : IoAbort P site s u := by
  obtain ⟨kind, s1, p, i, rfl⟩ := g
  exact ⟨kind, s1, p, h.trans i, rfl⟩

theorem IoAbort.mono {P Q : IoKind → Prop} (h : IoAbort P site s t) (hpq : ∀ kind, P kind → Q kind) :
    IoAbort Q site s t := by
  obtain ⟨kind, s1, p, i, rfl⟩ := h
  exact ⟨kind, s1, hpq kind p, i, rfl⟩

/-- What an abort leaves alone (R252). -/
theorem IoAbort.frame {P : IoKind → Prop} (h : IoAbort P site s t) :
    t.regs = s.regs ∧ t.pc = s.pc ∧ t.cond = s.cond ∧ (s.mem.wf → t.mem.wf) ∧
      (∀ a, a ≠ Config.kbsrAddr → a ≠ Config.kbdrAddr → rawWord a t = rawWord a s) ∧
      ∃ bs, t.console.output = s.console.output ++ bs := by
  obtain ⟨kind, s1, -, i, rfl⟩ := h
  exact ⟨i.regs, i.pc, i.cond, i.wf, i.mem, i.output⟩

/-- An abort leaves the engine ABORTED with the site's address and vector (R251). -/
theorem IoAbort.engine {P : IoKind → Prop} (h : IoAbort P site s t) :
    ∃ kind, P kind ∧ t.engine = .aborted (.ioFailure kind site.vector s.pc) site.ia := by
  obtain ⟨kind, s1, p, i, rfl⟩ := h
  exact ⟨kind, p, by rw [raiseIo_engine, i.pc]⟩

/-! ### The console -/

theorem consoleRead_io {e : ConsoleEvent} (h : consoleRead s = .ok e t) :
    IoOnly s t ∧ t.console.output = s.console.output ∧ t.console.failingWrite = s.console.failingWrite ∧
      t.mem = s.mem := by
  obtain ⟨h1, ⟨-, h2⟩ | ⟨-, -, rfl⟩⟩ := consoleRead_ok h
  · have hio : IoOnly s (setConsole t.console s) := .of_console (bs := []) (by rw [h2]; simp) (by rw [h2])
    exact ⟨h1 ▸ hio, by rw [h2], by rw [h2], by rw [h1]; rfl⟩
  · exact ⟨.refl _, rfl, rfl, rfl⟩

theorem consoleWrite_io {b : Byte} {v : Unit} (h : consoleWrite site b s = .ok v t) : IoOnly s t := by
  obtain ⟨h1, -, h3, h4⟩ := consoleWrite_ok h
  have hio : IoOnly s (setConsole t.console s) := .of_console h4 h3
  exact h1 ▸ hio

theorem consoleWrite_ioAbort {b : Byte} (h : consoleWrite site b s = .abort t) :
    IoAbort (· = .writeError) site s t :=
  ⟨.writeError, s, rfl, .refl _, (consoleWrite_abort h).1⟩

theorem consoleWriteAll_io {bs : List Byte} {v : Unit} (h : consoleWriteAll site bs s = .ok v t) : IoOnly s t := by
  obtain ⟨h1, -, h3, h4⟩ := consoleWriteAll_ok h
  have hio : IoOnly s (setConsole t.console s) := .of_console h4 h3
  exact h1 ▸ hio

theorem consoleWriteAll_ioAbort {bs : List Byte} (h : consoleWriteAll site bs s = .abort t) :
    IoAbort (· = .writeError) site s t := by
  unfold consoleWriteAll at h
  split at h
  · cases h
  · split at h
    · cases h
    · next k _ _ =>
      cases h
      exact ⟨.writeError,
        setConsole { s.console with failingWrite := some 0, output := s.console.output ++ bs.take k } s,
        rfl, .of_console rfl rfl, rfl⟩

/-! ### The memory interface -/

theorem memRead_io {a v : Word} (h : memRead site a s = .ok v t) :
    IoOnly s t ∧ t.console.output = s.console.output ∧ t.console.failingWrite = s.console.failingWrite := by
  obtain ⟨-, ⟨-, rfl⟩ | ⟨-, e, s1, hr, hc⟩⟩ := memRead_ok h
  · exact ⟨.refl _, rfl, rfl⟩
  · obtain ⟨h1, h2, h3, -⟩ := consoleRead_io hr
    obtain ⟨c, -, rfl⟩ | ⟨-, rfl⟩ := hc
    · exact ⟨h1.trans (.keyboardTakes _ _), h2, h3⟩
    · exact ⟨h1, h2, h3⟩

theorem memRead_ioAbort {a : Word} (h : memRead site a s = .abort t) :
    a = Config.kbsrAddr ∧ IoAbort (· = .readError) site s t ∧ t.console.output = s.console.output ∧
      t.console.failingWrite = s.console.failingWrite ∧ t.mem = s.mem := by
  obtain ⟨ha, s1, hr, rfl⟩ := memRead_abort h
  obtain ⟨h1, h2, h3, h4⟩ := consoleRead_io hr
  exact ⟨ha, ⟨_, _, rfl, h1, rfl⟩, h2, h3, h4⟩

/-- A read has no step only when the host never answers it (R270). -/
theorem memRead_stuck {a : Word} {f : Fault} (h : memRead site a s = .stuck f) :
    f = .blockedOnConsole ∧ a = Config.kbsrAddr ∧ s.console.input = [] ∧ s.console.tail = none := by
  unfold memRead at h
  split at h
  · next ha =>
    cases hr : consoleRead s with
    | ok e s1 => rw [hr] at h; cases e <;> cases h
    | abort s1 => exact absurd hr consoleRead_ne_abort
    | stuck g =>
      rw [hr] at h
      cases h
      obtain ⟨rfl, h1, h2⟩ := consoleRead_stuck hr
      exact ⟨rfl, ha, h1, h2⟩
  · cases h

end Sys2Proof.Machine
end

