-- ==== Sys2Proof/Laws/Trap.lean ====
section
/-! SUPPORT. Everything the string loop and the six services can do (spec 43_trap.md R211 to R220). -/

namespace Sys2Proof.Machine

variable {s t : State} {site : Site}

/-- The kinds of failure a string service can raise (R213, R215). -/
def ReadOrWrite (kind : IoKind) : Prop := kind = .readError ∨ kind = .writeError

/-- What an operation made of reads and writes at `site` can answer from s. -/
def IoResult {α : Type} (site : Site) (s : State) : Result α → Prop
  | .ok _ t => IoOnly s t
  | .abort t => IoAbort ReadOrWrite site s t
  | .stuck f => (f = .blockedOnConsole ∧ s.console.tail = none) ∨ f = .serviceNeverEnds

theorem IoResult.after {α : Type} {r : Result α} (h : IoOnly s t) (g : IoResult site t r) : IoResult site s r := by
  cases r with
  | ok v u => exact h.trans g
  | abort u => exact IoAbort.after h g
  | stuck f => exact g.imp (fun ⟨g1, g2⟩ => ⟨g1, by rw [← h.tail, g2]⟩) id

theorem IoResult.bind {α β : Type} {r : Result α} {k : α → State → Result β} (h : IoResult site s r)
    (hk : ∀ v t, r = .ok v t → IoResult site t (k v t)) : IoResult site s (r.bind k) := by
  cases r with
  | ok v t => exact .after h (hk v t rfl)
  | abort t => exact h
  | stuck f => exact h

theorem memRead_ioResult (site : Site) (a : Word) (s : State) : IoResult site s (memRead site a s) := by
  cases h : memRead site a s with
  | ok v t => exact (memRead_io h).1
  | abort t => exact (memRead_ioAbort h).2.1.mono fun _ => .inl
  | stuck f => exact .inl ⟨(memRead_stuck h).1, (memRead_stuck h).2.2.2⟩

theorem consoleWrite_ioResult (site : Site) (b : Byte) (s : State) : IoResult site s (consoleWrite site b s) := by
  cases h : consoleWrite site b s with
  | ok v t => exact consoleWrite_io h
  | abort t => exact (consoleWrite_ioAbort h).mono fun _ => .inr
  | stuck f => exact absurd h consoleWrite_ne_stuck

theorem putsWord_ioResult (site : Site) (w : Word) (s : State) : IoResult site s (putsWord site w s) := by
  unfold putsWord
  split
  · exact IoOnly.refl _
  · exact (consoleWrite_ioResult site _ s).bind fun _ _ _ => IoOnly.refl _

theorem putspWord_ioResult (site : Site) (w : Word) (s : State) : IoResult site s (putspWord site w s) := by
  unfold putspWord
  split
  · exact IoOnly.refl _
  · refine (consoleWrite_ioResult site _ s).bind fun _ s1 _ => ?_
    split
    · exact IoOnly.refl _
    · exact (consoleWrite_ioResult site _ s1).bind fun _ _ _ => IoOnly.refl _

theorem walk_ioResult {word : Word → State → Result Bool} (hw : ∀ w s, IoResult site s (word w s)) (bound : Nat)
    (a : Word) (s : State) : IoResult site s (walk site word bound a s) := by
  induction bound generalizing a s with
  | zero => exact .inr rfl
  | succ bound ih =>
    refine (memRead_ioResult site a s).bind fun w s1 _ => (hw w s1).bind fun ended s2 _ => ?_
    cases ended
    · exact ih _ _
    · exact IoOnly.refl _

/-- Everything the service of vector v can answer from s. -/
def ServiceOutcome (v : Byte) (s : State) : Outcome → Prop
  | .next t =>
    (∃ u, IoOnly s u ∧
      ((t = u ∧ (v = 0x21 ∨ v = 0x22 ∨ v = 0x24)) ∨ (t = setEngine .halted u ∧ v = 0x25) ∨
        (v = 0x20 ∧ ∃ c, t = writeReg 0 (zext8 c) u) ∨ (v = 0x23 ∧ ∃ c, t = writeRegCC 0 (zext8 c) u))) ∨
    IoAbort (ServiceRaises · v) (serviceSite v s) s t
  | .fault f =>
    (f = .blockedOnConsole ∧ s.console.tail = none) ∨ (f = .serviceNeverEnds ∧ (v = 0x22 ∨ v = 0x24))
  | .refused _ => False

theorem serviceGetc_outcome (s : State) : ServiceOutcome 0x20 s (serviceGetc s) := by
  unfold serviceGetc
  cases h : consoleRead s with
  | ok e t =>
    have hio := (consoleRead_io h).1
    cases e with
    | byte c => exact .inl ⟨t, hio, .inr (.inr (.inl ⟨rfl, c, rfl⟩))⟩
    | endOfInput => exact .inr ⟨.endOfInput, t, .inl rfl, hio, by simp [hio.serviceSite_eq]⟩
    | error => exact .inr ⟨.readError, t, .inl rfl, hio, by simp [hio.serviceSite_eq]⟩
  | abort t => exact absurd h consoleRead_ne_abort
  | stuck f => exact .inl ⟨(consoleRead_stuck h).1, (consoleRead_stuck h).2.2⟩

theorem serviceOut_outcome (s : State) : ServiceOutcome 0x21 s (serviceOut s) := by
  unfold serviceOut
  cases h : consoleWrite (serviceSite 0x21 s) (loByte (readReg 0 s)) s with
  | ok v t => exact .inl ⟨t, consoleWrite_io h, .inl ⟨rfl, .inl rfl⟩⟩
  | abort t => exact .inr ((consoleWrite_ioAbort h).mono fun k hk => by subst hk; exact .inl rfl)
  | stuck f => exact absurd h consoleWrite_ne_stuck

theorem stringService_outcome {v : Byte} {r : Result Unit} (h : IoResult (serviceSite v s) s r)
    (hv : v = 0x22 ∨ v = 0x24) : ServiceOutcome v s (r.thenDo fun _ s1 => .next s1) := by
  cases r with
  | ok u t => exact .inl ⟨t, h, .inl ⟨rfl, .inr hv⟩⟩
  | abort t =>
    refine .inr (IoAbort.mono h fun k hk => ?_)
    rcases hk with rfl | rfl <;> rcases hv with rfl | rfl <;> simp [ServiceRaises]
  | stuck f => exact h.imp id fun h => ⟨h, hv⟩

theorem servicePuts_outcome (s : State) : ServiceOutcome 0x22 s (servicePuts s) :=
  stringService_outcome (walk_ioResult (putsWord_ioResult _) _ _ _) (.inl rfl)

theorem servicePutsp_outcome (s : State) : ServiceOutcome 0x24 s (servicePutsp s) :=
  stringService_outcome (walk_ioResult (putspWord_ioResult _) _ _ _) (.inr rfl)

theorem serviceHalt_outcome (s : State) : ServiceOutcome 0x25 s (serviceHalt s) := by
  unfold serviceHalt
  cases h : consoleWriteAll (serviceSite 0x25 s) Config.haltNotice s with
  | ok v t => exact .inl ⟨t, consoleWriteAll_io h, .inr (.inl ⟨rfl, rfl⟩)⟩
  | abort t => exact .inr ((consoleWriteAll_ioAbort h).mono fun k hk => by subst hk; simp [ServiceRaises])
  | stuck f => exact absurd h consoleWriteAll_ne_stuck

theorem serviceIn_outcome (s : State) : ServiceOutcome 0x23 s (serviceIn s) := by
  unfold serviceIn
  cases h : consoleWriteAll (serviceSite 0x23 s) Config.inPrompt s with
  | abort t => exact .inr ((consoleWriteAll_ioAbort h).mono fun k hk => by subst hk; simp [ServiceRaises])
  | stuck f => exact absurd h consoleWriteAll_ne_stuck
  | ok v t =>
    have hio := consoleWriteAll_io h
    simp only [Result.thenDo_ok]
    cases h2 : consoleRead t with
    | abort u => exact absurd h2 consoleRead_ne_abort
    | stuck f => exact .inl ⟨(consoleRead_stuck h2).1, by rw [← hio.tail, (consoleRead_stuck h2).2.2]⟩
    | ok e u =>
      have hio2 := hio.trans (consoleRead_io h2).1
      simp only [Result.thenDo_ok]
      cases e with
      | endOfInput =>
        exact .inr ⟨.endOfInput, u, by simp [ServiceRaises], hio2, by simp [hio2.serviceSite_eq]⟩
      | error => exact .inr ⟨.readError, u, by simp [ServiceRaises], hio2, by simp [hio2.serviceSite_eq]⟩
      | byte c =>
        simp only [hio2.serviceSite_eq]
        cases h3 : consoleWrite (serviceSite 0x23 s) c u with
        | ok v2 u2 => exact .inl ⟨u2, hio2.trans (consoleWrite_io h3), .inr (.inr (.inr ⟨rfl, c, rfl⟩))⟩
        | abort u2 =>
          exact .inr ((IoAbort.after hio2 (consoleWrite_ioAbort h3)).mono fun k hk => by
            subst hk; simp [ServiceRaises])
        | stuck f => exact absurd h3 consoleWrite_ne_stuck

end Sys2Proof.Machine
end

