-- ==== Sys2Proof/Laws/Exec.lean ====
section
/-! SUPPORT. Everything an instruction can do, said once: exec's inversion lemma, and the step's. Whole-machine statements
are read off these. -/

namespace Sys2Proof.Machine

variable {i : Instr} {s t u : State}

/-- The one change instruction i makes of its own, from the state u its console and keyboard traffic left, having
started in s. -/
inductive OwnEffect (i : Instr) (s u : State) : State → Prop where
  | nothing : setsFlags i = false → OwnEffect i s u u
  | halts : setsFlags i = false → (i = .halt ∨ i = .trap 0x25) → OwnEffect i s u (setEngine .halted u)
  | register (r : Reg) (v : Word) : writtenReg i = some r → setsFlags i = false → OwnEffect i s u (writeReg r v u)
  | registerAndFlag (r : Reg) (v : Word) : writtenReg i = some r → setsFlags i = true →
      OwnEffect i s u (writeRegCC r v u)
  | memory (a v : Word) : StoresTo i s a → setsFlags i = false → OwnEffect i s u (memWrite a v u)
  | jumps (target : Word) : writesPc i = true → setsFlags i = false → OwnEffect i s u (setPc target u)
  | calls (r : Reg) (v target : Word) : writtenReg i = some r → writesPc i = true → setsFlags i = false →
      OwnEffect i s u (setPc target (writeReg r v u))

/-- What instruction i can answer from s. -/
def ExecOutcome (i : Instr) (s : State) : Outcome → Prop
  | .next t =>
    (∃ u, IoOnly s u ∧ OwnEffect i s u t) ∨
    (∃ site P, IoAbort P site s t ∧ site.ia = s.pc - 1 ∧
      ((site.vector = none ∧ P = (· = .readError)) ∨ ∃ v, site.vector = some v ∧ P = (ServiceRaises · v)))
  | .fault f =>
    (f = .blockedOnConsole ∧ s.console.tail = none) ∨
    (f = .serviceNeverEnds ∧ i ∈ [.puts, .putsp, .trap 0x22, .trap 0x24])
  | .refused _ => False

theorem ExecOutcome.own (h : OwnEffect i s s t) : ExecOutcome i s (.next t) := .inl ⟨s, .refl s, h⟩

/-- An instruction that begins with a MemRead. -/
theorem ExecOutcome.ofRead {a : Word} {k : Word → State → Outcome}
    (hk : ∀ v u, memRead (instrSite s) a s = .ok v u → IoOnly s u → ExecOutcome i s (k v u)) :
    ExecOutcome i s ((memRead (instrSite s) a s).thenDo k) := by
  cases h : memRead (instrSite s) a s with
  | ok v u => exact hk v u h (memRead_io h).1
  | abort t => exact .inr ⟨_, _, (memRead_ioAbort h).2.1, rfl, .inl ⟨rfl, rfl⟩⟩
  | stuck f => exact .inl ⟨(memRead_stuck h).1, (memRead_stuck h).2.2.2⟩

/-- An instruction that is the service of vector v. -/
theorem ExecOutcome.ofService {v : Byte} {o : Outcome} (h : ServiceOutcome v s o)
    (hf : setsFlags i = decide (v = 0x23)) (hr : writtenReg i = if v = 0x20 ∨ v = 0x23 then some 0 else none)
    (hh : v = 0x25 → i = .halt ∨ i = .trap 0x25)
    (hs : v = 0x22 ∨ v = 0x24 → i ∈ [.puts, .putsp, .trap 0x22, .trap 0x24]) : ExecOutcome i s o := by
  cases o with
  | refused r => exact h
  | fault f => exact h.imp id fun ⟨a, b⟩ => ⟨a, hs b⟩
  | next t =>
    rcases h with ⟨u, hu, h⟩ | h
    · refine .inl ⟨u, hu, ?_⟩
      rcases h with ⟨rfl, hv⟩ | ⟨rfl, rfl⟩ | ⟨rfl, c, rfl⟩ | ⟨rfl, c, rfl⟩
      · refine .nothing ?_
        rw [hf]
        rcases hv with rfl | rfl | rfl <;> decide
      · exact .halts (by rw [hf]; decide) (hh rfl)
      · exact .register _ _ (by rw [hr]; decide) (by rw [hf]; decide)
      · exact .registerAndFlag _ _ (by rw [hr]; decide) (by rw [hf]; decide)
    · exact .inr ⟨_, _, h, rfl, .inr ⟨v, rfl, rfl⟩⟩

/-- Everything every instruction can do. -/
theorem exec_outcome (i : Instr) (s : State) : ExecOutcome i s (exec i s) := by
  cases i with
  | addReg _ _ _ => exact .own (.registerAndFlag _ _ rfl rfl)
  | addImm _ _ _ => exact .own (.registerAndFlag _ _ rfl rfl)
  | andReg _ _ _ => exact .own (.registerAndFlag _ _ rfl rfl)
  | andImm _ _ _ => exact .own (.registerAndFlag _ _ rfl rfl)
  | not _ _ => exact .own (.registerAndFlag _ _ rfl rfl)
  | lea _ _ => exact .own (.registerAndFlag _ _ rfl rfl)
  | ld _ _ => exact .ofRead fun _ u _ hu => .inl ⟨u, hu, .registerAndFlag _ _ rfl rfl⟩
  | ldr _ _ _ => exact .ofRead fun _ u _ hu => .inl ⟨u, hu, .registerAndFlag _ _ rfl rfl⟩
  | ldi _ _ =>
    refine .ofRead fun p u _ hu => ?_
    rw [hu.instrSite_eq]
    cases h : memRead (instrSite s) p u with
    | ok v u' => exact .inl ⟨u', hu.trans (memRead_io h).1, .registerAndFlag _ _ rfl rfl⟩
    | abort t => exact .inr ⟨_, _, .after hu (memRead_ioAbort h).2.1, rfl, .inl ⟨rfl, rfl⟩⟩
    | stuck f => exact .inl ⟨(memRead_stuck h).1, by rw [← hu.tail, (memRead_stuck h).2.2.2]⟩
  | st _ _ => exact .own (.memory _ _ rfl rfl)
  | str _ _ _ => exact .own (.memory _ _ rfl rfl)
  | sti _ _ => exact .ofRead fun _ u h hu => .inl ⟨u, hu, .memory _ _ ⟨u, h⟩ rfl⟩
  | br n z p off9 =>
    simp only [exec, execBr]
    split
    · exact .own (.jumps _ rfl rfl)
    · exact .own (.nothing rfl)
  | jmp _ => exact .own (.jumps _ rfl rfl)
  | ret => exact .own (.jumps _ rfl rfl)
  | jsr _ => exact .own (.calls _ _ _ rfl rfl rfl)
  | jsrr _ => exact .own (.calls _ _ _ rfl rfl rfl)
  | rti => exact .own (.nothing rfl)
  | res => exact .own (.nothing rfl)
  | getc => exact .ofService (serviceGetc_outcome s) rfl rfl (by decide) (by decide)
  | out => exact .ofService (serviceOut_outcome s) rfl rfl (by decide) (by decide)
  | puts => exact .ofService (servicePuts_outcome s) rfl rfl (by decide) (by simp)
  | inChar => exact .ofService (serviceIn_outcome s) rfl rfl (by decide) (by decide)
  | putsp => exact .ofService (servicePutsp_outcome s) rfl rfl (by decide) (by simp)
  | halt => exact .ofService (serviceHalt_outcome s) rfl rfl (by simp) (by decide)
  | trap v =>
    simp only [exec, execTrap]
    split_ifs with h1 h2 h3 h4 h5 h6
    · subst h1; exact .ofService (serviceGetc_outcome s) rfl rfl (by decide) (by decide)
    · subst h2; exact .ofService (serviceOut_outcome s) rfl rfl (by decide) (by decide)
    · subst h3; exact .ofService (servicePuts_outcome s) rfl rfl (by decide) (by simp)
    · subst h4; exact .ofService (serviceIn_outcome s) rfl rfl (by decide) (by decide)
    · subst h5; exact .ofService (servicePutsp_outcome s) rfl rfl (by decide) (by simp)
    · subst h6; exact .ofService (serviceHalt_outcome s) rfl rfl (by simp) (by decide)
    · exact .own (.nothing (decide_eq_false h4))

/-- What a next state of an instruction can be. -/
theorem exec_next (h : exec i s = .next t) : ExecOutcome i s (.next t) := h ▸ exec_outcome i s

/-- What a next state of a step is made of: the engine was RUNNING, and either the fetch aborted or the decoded
instruction ran from the state the fetch left (R100). -/
theorem step_next (h : step s = .next t) :
    s.engine = .running ∧
      (memRead (fetchSite s) s.pc s = .abort t ∨
        ∃ w u, memRead (fetchSite s) s.pc s = .ok w u ∧ exec (decode w) (setPc (s.pc + 1) u) = .next t) := by
  unfold step at h
  split at h
  · next hr =>
    refine ⟨hr, ?_⟩
    rcases Result.thenDo_eq_next.mp h with h | ⟨w, s1, hf, hx⟩
    · rcases Result.bind_eq_abort.mp h with h | ⟨w, s1, -, hk⟩
      · exact .inl h
      · cases hk
    · obtain ⟨u, hm, rfl⟩ := fetch_ok hf
      exact .inr ⟨w, u, hm, hx⟩
  · cases h
  · cases h

end Sys2Proof.Machine
end

