-- ==== Sys2Proof/Laws/PerInstr.lean ====
section
/-! SUPPORT. Statements for all instructions, one lemma a constructor. The family OpcodeInTopBits: the top four bits of an
instruction's word are its opcode's code (spec 30_encoding.md R102). -/

namespace Sys2Proof.Laws

theorem append_top (o : BitVec 4) (x : BitVec 12) : opcodeField (o ++ x : BitVec (4 + 12)) = o := by
  refine BitVec.eq_of_getLsbD_eq fun k hk => ?_
  simp only [opcodeField, BitVec.getLsbD_extractLsb', BitVec.getLsbD_append, hk,
    Nat.not_lt.mpr (Nat.le_add_right 12 k), Nat.add_sub_cancel_left, decide_true, Bool.true_and, if_false]

/-- instr[15:12] of the word of i is the code of i's opcode. -/
def OpcodeInTopBits.Statement (i : Instr) : Prop := opcodeField (encode i) = i.opcode.code

theorem OpcodeInTopBits.addReg (dr sr1 sr2 : Reg) : OpcodeInTopBits.Statement (.addReg dr sr1 sr2) :=
  append_top _ _

theorem OpcodeInTopBits.addImm (dr sr1 : Reg) (imm5 : BitVec 5) : OpcodeInTopBits.Statement (.addImm dr sr1 imm5) :=
  append_top _ _

theorem OpcodeInTopBits.andReg (dr sr1 sr2 : Reg) : OpcodeInTopBits.Statement (.andReg dr sr1 sr2) :=
  append_top _ _

theorem OpcodeInTopBits.andImm (dr sr1 : Reg) (imm5 : BitVec 5) : OpcodeInTopBits.Statement (.andImm dr sr1 imm5) :=
  append_top _ _

theorem OpcodeInTopBits.not (dr sr : Reg) : OpcodeInTopBits.Statement (.not dr sr) :=
  append_top _ _

theorem OpcodeInTopBits.ld (dr : Reg) (off9 : BitVec 9) : OpcodeInTopBits.Statement (.ld dr off9) :=
  append_top _ _

theorem OpcodeInTopBits.ldi (dr : Reg) (off9 : BitVec 9) : OpcodeInTopBits.Statement (.ldi dr off9) :=
  append_top _ _

theorem OpcodeInTopBits.ldr (dr baseR : Reg) (off6 : BitVec 6) : OpcodeInTopBits.Statement (.ldr dr baseR off6) :=
  append_top _ _

theorem OpcodeInTopBits.lea (dr : Reg) (off9 : BitVec 9) : OpcodeInTopBits.Statement (.lea dr off9) :=
  append_top _ _

theorem OpcodeInTopBits.st (sr : Reg) (off9 : BitVec 9) : OpcodeInTopBits.Statement (.st sr off9) :=
  append_top _ _

theorem OpcodeInTopBits.sti (sr : Reg) (off9 : BitVec 9) : OpcodeInTopBits.Statement (.sti sr off9) :=
  append_top _ _

theorem OpcodeInTopBits.str (sr baseR : Reg) (off6 : BitVec 6) : OpcodeInTopBits.Statement (.str sr baseR off6) :=
  append_top _ _

theorem OpcodeInTopBits.br (n z p : Bool) (off9 : BitVec 9) : OpcodeInTopBits.Statement (.br n z p off9) :=
  append_top _ _

theorem OpcodeInTopBits.jmp (baseR : Reg) : OpcodeInTopBits.Statement (.jmp baseR) :=
  append_top _ _

theorem OpcodeInTopBits.jsr (off11 : BitVec 11) : OpcodeInTopBits.Statement (.jsr off11) :=
  append_top _ _

theorem OpcodeInTopBits.jsrr (baseR : Reg) : OpcodeInTopBits.Statement (.jsrr baseR) :=
  append_top _ _

theorem OpcodeInTopBits.trap (vector : Byte) : OpcodeInTopBits.Statement (.trap vector) :=
  append_top _ _

theorem OpcodeInTopBits.rti : OpcodeInTopBits.Statement .rti :=
  append_top _ _

theorem OpcodeInTopBits.res : OpcodeInTopBits.Statement .res :=
  append_top _ _

theorem OpcodeInTopBits.ret : OpcodeInTopBits.Statement .ret :=
  append_top _ _

theorem OpcodeInTopBits.getc : OpcodeInTopBits.Statement .getc :=
  append_top _ _

theorem OpcodeInTopBits.out : OpcodeInTopBits.Statement .out :=
  append_top _ _

theorem OpcodeInTopBits.puts : OpcodeInTopBits.Statement .puts :=
  append_top _ _

theorem OpcodeInTopBits.inChar : OpcodeInTopBits.Statement .inChar :=
  append_top _ _

theorem OpcodeInTopBits.putsp : OpcodeInTopBits.Statement .putsp :=
  append_top _ _

theorem OpcodeInTopBits.halt : OpcodeInTopBits.Statement .halt :=
  append_top _ _

end Sys2Proof.Laws
end

