-- ==== Sys2Proof/Tests/Slice0.lean ====
section
/-! SUPPORT. Tests. Words and expected results are those of spec/95_test_vectors.md (its section is named), or follow from
the encodings of 30_encoding.md R103 written bit by bit; none is taken from the model. After them, for every statement with
hypotheses, a concrete state and operands that meet them. -/

namespace Sys2Proof.Tests

open Sys2Proof Sys2Proof.Machine

/-! ### Small states -/

/-- State.reset with a pc, some registers and some words of memory of its own. -/
def machine (pc : Word) (regs : List (Reg × Word)) (words : List (Word × Word)) : State :=
  setPc pc (regs.foldl (fun s c => writeReg c.1 c.2 s) (words.foldl (fun s c => memWrite c.1 c.2 s) State.reset))

/-- s with the host's next events and what follows them. -/
def listening (events : List ConsoleEvent) (tail : Option ConsoleEvent) (s : State) : State :=
  setConsole { s.console with input := events, tail := tail } s

/-- s with a host that accepts k more writes. -/
def refusing (k : Nat) (s : State) : State := setConsole { s.console with failingWrite := some k } s

/-- s with the flag c. -/
def flagged (c : Cond) (s : State) : State := { s with cond := c }

/-- o is a next state, and P holds of it. -/
def gives (o : Outcome) (P : State → Bool) : Bool :=
  match o with
  | .next t => P t
  | .fault _ => false
  | .refused _ => false

/-! ### WellFormed: one ill-formed term for each check -/

theorem test_wf_refuses_jmp_r7 : (Instr.jmp 7).wf = false := by decide

theorem test_wf_refuses_getc_vector : (Instr.trap 0x20).wf = false := by decide

theorem test_wf_refuses_halt_vector : (Instr.trap 0x25).wf = false := by decide

theorem test_wf_accepts_the_neighbours :
    (Instr.jmp 6).wf = true ∧ (Instr.trap 0x1F).wf = true ∧ (Instr.trap 0x26).wf = true := by decide

/-! ### Decoding: words written out bit by bit from R103 (section 1 and 2 of 95_test_vectors.md give the same words) -/

theorem test_decode_operate :
    decode 0b0001_010_000_0_00_001 = .addReg 2 0 1 ∧ decode 0b0001_001_001_1_11011 = .addImm 1 1 (-5) ∧
    decode 0b0101_000_001_0_00_010 = .andReg 0 1 2 ∧ decode 0b0101_011_011_1_10000 = .andImm 3 3 (-16) ∧
    decode 0b1001_100_101_111111 = .not 4 5 := by decide

theorem test_decode_data_movement :
    decode 0b0010_001_000000110 = .ld 1 6 ∧ decode 0b1010_000_000000011 = .ldi 0 3 ∧
    decode 0b0110_010_011_111111 = .ldr 2 3 (-1) ∧ decode 0b1110_000_000000010 = .lea 0 2 ∧
    decode 0b0011_000_011111111 = .st 0 255 ∧ decode 0b1011_001_000000100 = .sti 1 4 ∧
    decode 0b0111_100_101_000011 = .str 4 5 3 := by decide

theorem test_decode_control :
    decode 0b0000_001_111111101 = .br false false true (-3) ∧ decode 0b0000_110_000000001 = .br true true false 1 ∧
    decode 0b1100_000_010_000000 = .jmp 2 ∧ decode 0b1100_000_111_000000 = .ret ∧
    decode 0b0100_1_00000000010 = .jsr 2 ∧ decode 0b0100_0_00_011_000000 = .jsrr 3 := by decide

theorem test_decode_trap :
    decode 0b1111_0000_00100000 = .getc ∧ decode 0b1111_0000_00100001 = .out ∧ decode 0b1111_0000_00100010 = .puts ∧
    decode 0b1111_0000_00100011 = .inChar ∧ decode 0b1111_0000_00100100 = .putsp ∧
    decode 0b1111_0000_00100101 = .halt ∧ decode 0b1111_0000_00100110 = .trap 0x26 ∧
    decode 0b1111_0000_00000000 = .trap 0 := by decide

theorem test_decode_reserved :
    decode 0b1000_000000000000 = .rti ∧ decode 0b1101_000000000000 = .res := by decide

/-- R111: ignored bits. -/
theorem test_decode_ignores_unused_bits :
    decode 0x1018 = .addReg 0 0 0 ∧ decode 0x505A = .andReg 0 1 2 ∧ decode 0x9900 = .not 4 4 ∧
    decode 0xCE3F = .jmp 0 ∧ decode 0xCFFF = .ret ∧ decode 0x46FF = .jsrr 3 ∧ decode 0xFF25 = .halt ∧
    decode 0x8FFF = .rti ∧ decode 0xDFFF = .res := by decide

theorem test_encode_writes_the_assembler_words :
    encode (.not 4 5) = 0x997F ∧ encode .ret = 0xC1C0 ∧ encode (.br false false true (-3)) = 0x03FD ∧
    encode (.str 4 5 3) = 0x7943 ∧ encode .halt = 0xF025 ∧ encode (.addImm 1 1 (-5)) = 0x127B := by decide

theorem test_table_word_longer_than_a_word_is_none : decodeTableWord 16 0x11025 = none := by decide

/-! ### Sign extension (section 2.1) -/

theorem test_sext :
    sext (0b10000 : BitVec 5) = 0xFFF0 ∧ sext (0b01111 : BitVec 5) = 0x000F ∧ sext (0b100000 : BitVec 6) = 0xFFE0 ∧
    sext (0x100 : BitVec 9) = 0xFF00 ∧ sext (0x0FF : BitVec 9) = 0x00FF ∧ sext (0x400 : BitVec 11) = 0xFC00 ∧
    sext (0x3FF : BitVec 11) = 0x03FF ∧ zext8 0xFF = 0x00FF := by decide

/-! ### One step of each instruction (sections 2.2 to 2.10) -/

theorem test_add_overflow_wraps :
    gives (step (machine 0x3000 [(0, 0x7FFF), (1, 1)] [(0x3000, 0x1401)]))
      (fun t => readReg 2 t = 0x8000 && t.cond = .n && t.pc = 0x3001) = true := by decide

theorem test_add_same_register_ignores_bits_4_3 :
    gives (step (machine 0x3000 [(0, 2)] [(0x3000, 0x1018)])) (fun t => readReg 0 t = 4 && t.cond = .p) = true := by
  decide

theorem test_add_immediate_minus_16 :
    gives (step (machine 0x3000 [] [(0x3000, 0x1270)])) (fun t => readReg 1 t = 0xFFF0 && t.cond = .n) = true := by
  decide

theorem test_add_immediate_minus_1 :
    gives (step (machine 0x3000 [(1, 0x8000)] [(0x3000, 0x127F)]))
      (fun t => readReg 1 t = 0x7FFF && t.cond = .p) = true := by decide

theorem test_and_register :
    gives (step (machine 0x3000 [(1, 0xF0F0), (2, 0x0FF0)] [(0x3000, 0x5042)]))
      (fun t => readReg 0 t = 0x00F0 && t.cond = .p) = true := by decide

theorem test_and_register_zero :
    gives (step (machine 0x3000 [(1, 0x5555), (2, 0xAAAA)] [(0x3000, 0x5042)]))
      (fun t => readReg 0 t = 0 && t.cond = .z) = true := by decide

theorem test_and_immediate_minus_16 :
    gives (step (machine 0x3000 [(3, 0xFFFF)] [(0x3000, 0x56F0)]))
      (fun t => readReg 3 t = 0xFFF0 && t.cond = .n) = true := by decide

theorem test_and_immediate_15 :
    gives (step (machine 0x3000 [(3, 0x1234)] [(0x3000, 0x56EF)]))
      (fun t => readReg 3 t = 4 && t.cond = .p) = true := by decide

theorem test_not :
    gives (step (machine 0x3000 [(5, 0x8000)] [(0x3000, 0x997F)]))
      (fun t => readReg 4 t = 0x7FFF && t.cond = .p) = true := by decide

theorem test_not_ignores_bits_5_0 :
    gives (step (machine 0x3000 [(4, 0x0F0F)] [(0x3000, 0x9900)]))
      (fun t => readReg 4 t = 0xF0F0 && t.cond = .n) = true := by decide

theorem test_ld_wraps_to_its_own_word :
    gives (step (machine 0xFFFF [] [(0xFFFF, 0x21FF)]))
      (fun t => readReg 0 t = 0x21FF && t.cond = .p && t.pc = 0) = true := by decide

theorem test_ld_minus_256 :
    gives (step (machine 0x3000 [] [(0x3000, 0x2100), (0x2F01, 7)]))
      (fun t => readReg 0 t = 7 && t.cond = .p) = true := by decide

theorem test_ldi_polls_the_keyboard :
    gives (step (listening [.byte 0x61] (some .endOfInput) (machine 0x3000 [] [(0x3000, 0xA000), (0x3001, 0xFE00)])))
      (fun t => readReg 0 t = 0x8000 && t.cond = .n && rawWord 0xFE02 t = 0x61 && t.console.input = []) = true := by
  decide

theorem test_ldi_read_error_aborts :
    gives (step (listening [.error] none (machine 0x3000 [(0, 9)] [(0x3000, 0xA000), (0x3001, 0xFE00)])))
      (fun t => t.engine = .aborted (.ioFailure .readError none 0x3001) 0x3000 && readReg 0 t = 9 && t.cond = .z)
      = true := by decide

theorem test_ldr_reads_the_base_before_it_writes :
    gives (step (machine 0x3000 [(2, 0x4000)] [(0x3000, 0x6480), (0x4000, 0x4001)]))
      (fun t => readReg 2 t = 0x4001 && t.cond = .p) = true := by decide

theorem test_ldr_wraps :
    gives (step (machine 0x3000 [(2, 0xFFF0)] [(0x3000, 0x629F), (0x000F, 0x9000)]))
      (fun t => readReg 1 t = 0x9000 && t.cond = .n) = true := by decide

theorem test_lea_minus_1_at_0 :
    gives (step (machine 0 [(0, 5)] [(0, 0xE1FF)])) (fun t => readReg 0 t = 0 && t.cond = .z) = true := by decide

theorem test_lea_0 :
    gives (step (machine 0x3000 [] [(0x3000, 0xE000)]))
      (fun t => readReg 0 t = 0x3001 && t.cond = .p && t.pc = 0x3001) = true := by decide

theorem test_st_keeps_the_flag :
    gives (step (flagged .n (machine 0x3000 [(0, 0)] [(0x3000, 0x30FF), (0x3100, 8)])))
      (fun t => rawWord 0x3100 t = 0 && t.cond = .n) = true := by decide

theorem test_st_minus_256 :
    gives (step (machine 0x3000 [(0, 9)] [(0x3000, 0x3100)])) (fun t => rawWord 0x2F01 t = 9) = true := by decide

theorem test_sti_to_kbsr_is_a_plain_write :
    gives (step (listening [.byte 1] none (machine 0x3000 [(0, 0)] [(0x3000, 0xB000), (0x3001, 0xFE00), (0xFE00, 0x8000)])))
      (fun t => rawWord 0xFE00 t = 0 && t.console.input = [.byte 1]) = true := by decide

theorem test_sti_through_its_own_word :
    gives (step (machine 0x3000 [(0, 1)] [(0x3000, 0xB1FF)])) (fun t => rawWord 0xB1FF t = 1) = true := by decide

theorem test_str_minus_32_wraps :
    gives (step (machine 0x3000 [(1, 1), (2, 0x10)] [(0x3000, 0x72A0)])) (fun t => rawWord 0xFFF0 t = 1) = true := by
  decide

theorem test_str_base_is_source :
    gives (step (machine 0x3000 [(2, 0x4000)] [(0x3000, 0x7480)])) (fun t => rawWord 0x4000 t = 0x4000) = true := by
  decide

theorem test_br_zp :
    [Cond.p, .z, .n].all (fun c => gives (step (flagged c (machine 0x3000 [] [(0x3000, 0x07FF)])))
      (fun t => t.pc = if c = .n then 0x3001 else 0x3000)) = true := by decide

theorem test_br_wraps :
    gives (step (machine 0x0005 [] [(0x0005, 0x0F00)])) (fun t => t.pc = 0xFF06) = true := by decide

theorem test_jmp_ignores_unused_bits :
    gives (step (machine 0x3000 [(0, 0x1234)] [(0x3000, 0xCE3F)])) (fun t => t.pc = 0x1234) = true := by decide

theorem test_ret :
    gives (step (machine 0x3006 [(7, 0x3002)] [(0x3006, 0xC1C0)])) (fun t => t.pc = 0x3002) = true := by decide

theorem test_jsr_wraps :
    gives (step (flagged .n (machine 0xFFF0 [] [(0xFFF0, 0x4BFF)])))
      (fun t => readReg 7 t = 0xFFF1 && t.pc = 0x03F0 && t.cond = .n) = true := by decide

theorem test_jsr_minus_1024 :
    gives (step (machine 0x3000 [] [(0x3000, 0x4C00)])) (fun t => readReg 7 t = 0x3001 && t.pc = 0x2C01) = true := by
  decide

theorem test_jsrr :
    gives (step (machine 0x3000 [(3, 0x5000)] [(0x3000, 0x40C0)]))
      (fun t => readReg 7 t = 0x3001 && t.pc = 0x5000) = true := by decide

theorem test_jsrr_r7 :
    gives (step (machine 0x3000 [(7, 0x5000)] [(0x3000, 0x41C0)]))
      (fun t => readReg 7 t = 0x3001 && t.pc = 0x3001) = true := by decide

theorem test_getc :
    gives (step (listening [.byte 0xE9] none (flagged .n (machine 0x3000 [(0, 0xFFFF)] [(0x3000, 0xF020)]))))
      (fun t => readReg 0 t = 0x00E9 && t.cond = .n && t.console.output = []) = true := by decide

theorem test_getc_end_of_input_aborts :
    gives (step (machine 0x3000 [] [(0x3000, 0xF020)]))
      (fun t => t.engine = .aborted (.ioFailure .endOfInput (some 0x20) 0x3001) 0x3000) = true := by decide

theorem test_out :
    gives (step (machine 0x3000 [(0, 0x0141)] [(0x3000, 0xF021)])) (fun t => t.console.output = [0x41]) = true := by
  decide

theorem test_puts_hi :
    gives (step (machine 0x3000 [(0, 0x4000)] [(0x3000, 0xF022), (0x4000, 0x0048), (0x4001, 0x0069)]))
      (fun t => t.console.output = [0x48, 0x69] && readReg 0 t = 0x4000 && t.cond = .z) = true := by decide

theorem test_puts_ends_at_a_zero_word_only :
    gives (step (machine 0x3000 [(0, 0x4000)] [(0x3000, 0xF022), (0x4000, 0x0100)]))
      (fun t => t.console.output = [0x00]) = true := by decide

theorem test_in_sets_r0_and_the_flag :
    gives (step (listening [.byte 0x37] none (machine 0x3000 [] [(0x3000, 0xF023)])))
      (fun t => readReg 0 t = 0x37 && t.cond = .p) = true := by decide

theorem test_in_writes_the_prompt_and_the_echo :
    (match step (listening [.byte 0x37] none (machine 0x3000 [] [(0x3000, 0xF023)])) with
      | .next t => t.console.output
      | .fault _ => []
      | .refused _ => []) = Config.inPrompt ++ [0x37] := by rfl

theorem test_putsp_odd_length :
    gives (step (machine 0x3000 [(0, 0x4000)] [(0x3000, 0xF024), (0x4000, 0x6948), (0x4001, 0x0021)]))
      (fun t => t.console.output = [0x48, 0x69, 0x21]) = true := by decide

theorem test_putsp_zero_low_byte_ends_it :
    gives (step (machine 0x3000 [(0, 0x4000)] [(0x3000, 0xF024), (0x4000, 0x4100)]))
      (fun t => t.console.output = []) = true := by decide

theorem test_halt :
    gives (step (machine 0x3000 [] [(0x3000, 0xF025)])) (fun t => t.engine = .halted && t.pc = 0x3001) = true := by
  decide

theorem test_halt_writes_the_notice :
    (match step (machine 0x3000 [] [(0x3000, 0xFF25)]) with
      | .next t => t.console.output
      | .fault _ => []
      | .refused _ => []) = Config.haltNotice := by rfl

theorem test_other_vectors_do_nothing :
    [0xF000, 0xF01F, 0xF026, 0xF0FF].all (fun w => gives (step (machine 0x3000 [] [(0x3000, w)]))
      (fun t => t = setPc 0x3001 (machine 0x3000 [] [(0x3000, w)]))) = true := by decide

theorem test_reserved_do_nothing :
    [0x8000, 0x8FFF, 0xD000, 0xDFFF].all (fun w => gives (step (machine 0x3000 [] [(0x3000, w)]))
      (fun t => t = setPc 0x3001 (machine 0x3000 [] [(0x3000, w)]))) = true := by decide

/-! ### Fetch and the keyboard device (section 2.11) -/

theorem test_fetch_wraps : gives (step (machine 0xFFFF [] [])) (fun t => t.pc = 0) = true := by decide

theorem test_fetch_from_kbsr_takes_an_event :
    gives (step (listening [.byte 0x41] none (machine 0xFE00 [] [])))
      (fun t => rawWord 0xFE00 t = 0x8000 && rawWord 0xFE02 t = 0x41 && t.pc = 0xFE01 && t.console.input = [])
      = true := by decide

theorem test_fetch_error_aborts_with_pc_at_kbsr :
    gives (step (listening [.error] none (machine 0xFE00 [] [])))
      (fun t => t.engine = .aborted (.ioFailure .readError none 0xFE00) 0xFE00 && t.pc = 0xFE00) = true := by decide

theorem test_halted_has_no_step : step (setEngine .halted State.reset) = .fault .engineStopped := by rfl

/-! ### Loader (section 2.12) -/

/-- The load port with zero registers, flag Z and the reset console. -/
def loads (image : List Byte) : Except InvalidImage State := load image State.regInit .z Console.reset

/-- r is an accepted image's state, and P holds of it. -/
def accepts (r : Except InvalidImage State) (P : State → Bool) : Bool :=
  match r with
  | .ok s => P s
  | .error _ => false

theorem test_load_refuses :
    [[], [0x30], [0xFF, 0xFF, 0x12, 0x34, 0x56, 0x78]].all (fun i => !accepts (loads i) (fun _ => true)) = true := by
  decide

theorem test_load_accepts :
    accepts (loads [0x30, 0x00]) (fun s => s.pc = 0x3000 && s.mem = []) = true ∧
    accepts (loads [0xFF, 0xFF, 0x12, 0x34]) (fun s => rawWord 0xFFFF s = 0x1234) = true ∧
    accepts (loads [0xFF, 0xFE, 0x12, 0x34, 0x56, 0x78]) (fun s => rawWord 0xFFFF s = 0x5678) = true ∧
    accepts (loads [0x30, 0x00, 0xE0, 0x00]) (fun s => rawWord 0x3000 s = 0xE000 && s.engine = .running) = true := by
  decide

/-- Every row's word, its ignored bits and operands zero, is run by the first step after reset. -/
theorem test_every_row_runs_first_after_reset :
    [0x1000, 0x1020, 0x5000, 0x5020, 0x9000, 0x2000, 0xA000, 0x6000, 0xE000, 0x3000, 0xB000, 0x7000, 0x0000, 0xC000,
      0x4800, 0x4000, 0xF000, 0x8000, 0xD000, 0xC1C0, 0xF020, 0xF021, 0xF022, 0xF023, 0xF024, 0xF025].all
        (fun w => gives (step (State.reset.withFetchWord 16 w)) (fun _ => true)) = true := by decide

/-! ### Witnesses: states and operands that meet the hypotheses of the statements, clause by clause -/

/-- A RUNNING state with nothing in memory but w at pc 0x3000, and the given registers. -/
abbrev running (regs : List (Reg × Word)) (w : Word) : State := machine 0x3000 regs [(0x3000, w)]

/-- The next event is a character, at the head of the list and as the tail; it is the end of input; it is an error; there
is none. -/
theorem witness_next_events :
    NextEvent (.byte 0xFF) (listening [.byte 0xFF] none State.reset).console
      (listening [] none State.reset).console ∧
    NextEvent (.byte 0x00) (listening [] (some (.byte 0x00)) State.reset).console
      (listening [] (some (.byte 0x00)) State.reset).console ∧
    NextEvent .endOfInput State.reset.console State.reset.console ∧
    NextEvent .error (listening [.error, .byte 1] none State.reset).console
      (listening [.byte 1] none State.reset).console ∧
    NeverAnswers (listening [] none State.reset).console :=
  ⟨.inl ⟨_, rfl, rfl⟩, .inr ⟨rfl, rfl, rfl⟩, .inr ⟨rfl, rfl, rfl⟩, .inl ⟨_, rfl, rfl⟩, rfl, rfl⟩

/-- The host accepts all writes, or just enough; or it refuses the very next one. -/
theorem witness_writes :
    (∀ k, AcceptsWrites k State.reset.console) ∧ AcceptsWrites 1 (refusing 1 State.reset).console ∧
    (refusing 0 State.reset).console.failingWrite = some 0 :=
  ⟨fun _ _ h => (by cases h), fun _ h => (by cases h; exact le_rfl), rfl⟩

/-- AcceptedImageGivesTheResetState, EveryLoadedStateMeetsTheInvariant: an image of one word; its word 0 is covered, the
address after it is not. -/
theorem witness_accepted_image :
    ∃ s, load [0x30, 0x00, 0xE0, 0x00] State.regInit .n Console.reset = .ok s ∧
      2 * 0 + 3 < [0x30, 0x00, 0xE0, 0x00].length ∧
      ∀ k, 2 * k + 3 < [0x30, 0x00, 0xE0, 0x00].length → (0x3001 : Word) ≠ s.pc + BitVec.ofNat 16 k := by
  refine ⟨_, rfl, by decide, fun k hk => ?_⟩
  have : k = 0 := by simp at hk; omega
  subst this
  decide

/-- LoadPortRefusesExactlyTheInvalidImages: the boundary of each case (section 2.12). -/
theorem witness_refused_images :
    (∃ e, loads [] = .error e) ∧ (∃ e, loads [0x30] = .error e) ∧
    (∃ e, loads [0xFF, 0xFF, 0x12, 0x34, 0x56, 0x78] = .error e) ∧
    0xFF * 256 + 0xFF + (6 / 2 - 1) - 1 > 0xFFFF ∧ ¬ 0xFF * 256 + 0xFF + (4 / 2 - 1) - 1 > 0xFFFF :=
  ⟨⟨_, rfl⟩, ⟨_, rfl⟩, ⟨_, rfl⟩, by decide, by decide⟩

/-- EveryStepKeepsTheInvariant, MemWriteReplacesOneWordOnly, CanonicalMemoriesThatReadAlikeAreEqual. -/
theorem witness_invariant :
    Inv (running [] 0x1021) ∧ (∃ t, step (running [] 0x1021) = .next t) ∧ (running [] 0x1021).mem.wf ∧
      (running [] 0x1021).mem ≠ [] :=
  ⟨⟨by decide, trivial⟩, ⟨_, rfl⟩, by decide, by decide⟩

/-- MemReadChecksTheKeyboard: the neighbours of KBSR_ADDR are the other case; the events are witness_next_events. -/
theorem witness_keyboard_addresses :
    (0xFDFF : Word) ≠ Config.kbsrAddr ∧ (0xFE01 : Word) ≠ Config.kbsrAddr ∧ Config.kbdrAddr ≠ Config.kbsrAddr ∧
      (0xFE00 : Word) = Config.kbsrAddr := by decide

/-- DecodeOfEncodeIsTheInstruction. -/
theorem witness_well_formed :
    (Instr.addImm 7 0 (-16)).wf = true ∧ (Instr.jmp 6).wf = true ∧ (Instr.trap 0xFF).wf = true := by decide

/-- IgnoredBitsDoNotChangeDecoding, TopBitsAndModeBitsSelectTheInstruction and the decoding clause of each instruction's
statement: a word for each clause's fields. -/
theorem witness_fields :
    (bitsOf 0x1401 12 4 = 1 ∧ bitsOf 0x1401 9 3 = 2 ∧ bitsOf 0x1401 6 3 = 0 ∧ bitsOf 0x1401 5 1 = 0 ∧
      bitsOf 0x1401 0 3 = 1) ∧
    (bitsOf 0x127B 12 4 = 1 ∧ bitsOf 0x127B 9 3 = 1 ∧ bitsOf 0x127B 6 3 = 1 ∧ bitsOf 0x127B 5 1 = 1 ∧
      bitsOf 0x127B 0 5 = (-5 : BitVec 5).toNat) ∧
    (bitsOf 0x5042 12 4 = 5 ∧ bitsOf 0x5042 5 1 = 0) ∧ (bitsOf 0x56F0 12 4 = 5 ∧ bitsOf 0x56F0 5 1 = 1) ∧
    (bitsOf 0x997F 12 4 = 9 ∧ bitsOf 0x997F 9 3 = 4 ∧ bitsOf 0x997F 6 3 = 5) ∧
    (bitsOf 0x2206 12 4 = 2 ∧ bitsOf 0x2206 9 3 = 1 ∧ bitsOf 0x2206 0 9 = 6) ∧ bitsOf 0xA003 12 4 = 10 ∧
    (bitsOf 0x64FF 12 4 = 6 ∧ bitsOf 0x64FF 6 3 = 3 ∧ bitsOf 0x64FF 0 6 = (-1 : BitVec 6).toNat) ∧
    bitsOf 0xE002 12 4 = 14 ∧ bitsOf 0x30FF 12 4 = 3 ∧ bitsOf 0xB204 12 4 = 11 ∧ bitsOf 0x7943 12 4 = 7 ∧
    (bitsOf 0x03FD 12 4 = 0 ∧ bitsOf 0x03FD 11 1 = false.toNat ∧ bitsOf 0x03FD 10 1 = false.toNat ∧
      bitsOf 0x03FD 9 1 = true.toNat ∧ bitsOf 0x03FD 0 9 = (-3 : BitVec 9).toNat) ∧
    (bitsOf 0xC1C0 12 4 = 12 ∧ bitsOf 0xC1C0 6 3 = 7) ∧
    (bitsOf 0x4802 12 4 = 4 ∧ bitsOf 0x4802 11 1 = 1 ∧ bitsOf 0x4802 0 11 = 2) ∧
    (bitsOf 0x40C0 12 4 = 4 ∧ bitsOf 0x40C0 11 1 = 0 ∧ bitsOf 0x40C0 6 3 = 3) ∧
    (bitsOf 0xFF25 12 4 = 15 ∧ bitsOf 0xFF25 0 8 = 0x25) ∧ bitsOf 0x8FFF 12 4 = 8 ∧ bitsOf 0xD123 12 4 = 13 := by decide

/-- StepRunsTheDecodedInstruction and FailingFetchAbortsBeforeTheInstruction: a fetch that goes on, one that aborts, one
that blocks, and an engine that is not RUNNING. -/
theorem witness_fetches :
    (∃ w u, (running [] 0x1021).engine = .running ∧
      memRead (fetchSite (running [] 0x1021)) (running [] 0x1021).pc (running [] 0x1021) = .ok w u) ∧
    (∃ u, memRead (fetchSite (listening [.error] none (machine 0xFE00 [] []))) 0xFE00
      (listening [.error] none (machine 0xFE00 [] [])) = .abort u) ∧
    (∃ f, memRead (fetchSite (listening [] none (machine 0xFE00 [] []))) 0xFE00
      (listening [] none (machine 0xFE00 [] [])) = .stuck f) ∧
    (machine 0xFE00 [] []).pc = Config.kbsrAddr ∧ (setEngine .halted State.reset).engine ≠ .running :=
  ⟨⟨_, _, rfl, rfl⟩, ⟨_, rfl⟩, ⟨_, rfl⟩, rfl, by decide⟩

/-- PlacedWordIsTheNextInstruction: the addresses beside KBSR_ADDR and the largest word. -/
theorem witness_placed_word :
    (machine 0xFDFF [] []).engine = .running ∧ (machine 0xFDFF [] []).pc ≠ Config.kbsrAddr ∧ 0xFFFF < 65536 := by decide

/-- StoredWordIsFetchedByTheNextStep: the ST #0 of section 2.6, and STI and STR to the next instruction. -/
theorem witness_stored_next :
    (StoresTo (.st 0 0) (machine 0x3001 [(0, 0x1025)] []) 0x3001 ∧
      ∃ t, exec (.st 0 0) (machine 0x3001 [(0, 0x1025)] []) = .next t ∧ t.engine = .running ∧ t.pc = 0x3001) ∧
    (StoresTo (.sti 0 1) (machine 0x3001 [(0, 0x1025)] [(0x3002, 0x3001)]) 0x3001 ∧
      ∃ t, exec (.sti 0 1) (machine 0x3001 [(0, 0x1025)] [(0x3002, 0x3001)]) = .next t ∧ t.engine = .running ∧
        t.pc = 0x3001) ∧
    (StoresTo (.str 0 1 (-1)) (machine 0x3001 [(0, 0x1025), (1, 0x3002)] []) 0x3001 ∧
      ∃ t, exec (.str 0 1 (-1)) (machine 0x3001 [(0, 0x1025), (1, 0x3002)] []) = .next t ∧ t.engine = .running ∧
        t.pc = 0x3001) :=
  ⟨⟨by show _ = _; decide, _, rfl, rfl, rfl⟩, ⟨⟨_, rfl⟩, _, rfl, rfl, rfl⟩, ⟨by show _ = _; decide, _, rfl, rfl, rfl⟩⟩

/-- LdLoadsFromPcPlusOffset, LdrLoadsFromBasePlusOffset, LdiLoadsThroughThePointer, StiStoresThroughThePointer: an address
that wraps; a read that goes on, one that aborts, one that blocks, at an instruction whose pc is 0xFE01 (offset -1). -/
theorem witness_data_reads :
    IsWord 0xFFFF (((machine 0 [] []).pc.toNat : Int) + (-1 : BitVec 9).toInt) ∧
    IsWord 0x000F (((readReg 2 (machine 0 [(2, 0xFFF0)] [])).toNat : Int) + (31 : BitVec 6).toInt) ∧
    IsWord 0xFE00 (((machine 0xFE01 [] []).pc.toNat : Int) + (-1 : BitVec 9).toInt) ∧
    (0xFFFF : Word) ≠ Config.kbsrAddr ∧ rawWord 0xFFFF (machine 0 [] []) ≠ Config.kbsrAddr ∧
    (∃ v u, memRead (instrSite (listening [.byte 1] none (machine 0xFE01 [] []))) 0xFE00
      (listening [.byte 1] none (machine 0xFE01 [] [])) = .ok v u) ∧
    (∃ u, memRead (instrSite (listening [.error] none (machine 0xFE01 [] []))) 0xFE00
      (listening [.error] none (machine 0xFE01 [] [])) = .abort u) ∧
    (∃ f, memRead (instrSite (listening [] none (machine 0xFE01 [] []))) 0xFE00
      (listening [] none (machine 0xFE01 [] [])) = .stuck f) := by
  refine ⟨by show _ = _; decide, by show _ = _; decide, by show _ = _; decide, by decide, by decide, ⟨_, _, rfl⟩, ⟨_, rfl⟩,
    ⟨_, rfl⟩⟩

/-- LdiLoadsThroughThePointer: the pointer is KBSR_ADDR, and the second read goes on, aborts, or blocks. -/
theorem witness_ldi_second_read :
    ∀ es : List ConsoleEvent, ∃ u,
      memRead (instrSite (listening es none (machine 0x3001 [] [(0x3001, 0xFE00)]))) 0x3001
        (listening es none (machine 0x3001 [] [(0x3001, 0xFE00)])) = .ok Config.kbsrAddr u ∧
      (es = [.byte 1] → ∃ v u', memRead (instrSite u) Config.kbsrAddr u = .ok v u') ∧
      (es = [.error] → ∃ u', memRead (instrSite u) Config.kbsrAddr u = .abort u') ∧
      (es = [] → ∃ f, memRead (instrSite u) Config.kbsrAddr u = .stuck f) := by
  intro es
  refine ⟨listening es none (machine 0x3001 [] [(0x3001, 0xFE00)]), rfl, ?_, ?_, ?_⟩ <;> rintro rfl
  · exact ⟨_, _, rfl⟩
  · exact ⟨_, rfl⟩
  · exact ⟨_, rfl⟩

/-- BrIsTakenExactlyOnAMaskedFlag: a mask that has the flag, and one that has not. -/
theorem witness_masks :
    (false = true ∧ State.reset.cond = .n ∨ true = true ∧ State.reset.cond = .z ∨ false = true ∧ State.reset.cond = .p) ∧
    ¬(true = true ∧ State.reset.cond = .n ∨ false = true ∧ State.reset.cond = .z ∨ true = true ∧ State.reset.cond = .p) := by
  decide

/-- TrapRunsWhatTheLowByteSelects, JsrrLinksBeforeItReadsTheBase, OutWritesTheLowByteOfR0: the vectors beside the services
and the ends of the range, both kinds of base, and a low byte. -/
theorem witness_selectors :
    [0x00, 0x1F, 0x26, 0xFF].all (fun v : Byte => decide (v.toNat < 0x20 ∨ 0x25 < v.toNat)) = true ∧
    (6 : Reg) ≠ 7 ∧ (0x41 : Byte).toNat = (readReg 0 (running [(0, 0x0141)] 0xF021)).toNat % 256 := by decide

/-- PutsWritesTheStringAtR0: "Hi" at 0xFDFD, whose zero word is the last address before KBSR_ADDR; and the empty string. -/
theorem witness_string :
    (∀ w ∈ [(0x0048 : Word), 0x0069], w ≠ 0) ∧
    (∀ k, (h : k < [(0x0048 : Word), 0x0069].length) →
      readReg 0 (machine 0x3000 [(0, 0xFDFD)] [(0xFDFD, 0x0048), (0xFDFE, 0x0069)]) + BitVec.ofNat 16 k ≠ Config.kbsrAddr ∧
      rawWord (readReg 0 (machine 0x3000 [(0, 0xFDFD)] [(0xFDFD, 0x0048), (0xFDFE, 0x0069)]) + BitVec.ofNat 16 k)
        (machine 0x3000 [(0, 0xFDFD)] [(0xFDFD, 0x0048), (0xFDFE, 0x0069)]) = [(0x0048 : Word), 0x0069][k]) ∧
    (0xFDFD : Word) + BitVec.ofNat 16 2 ≠ Config.kbsrAddr ∧
    rawWord (0xFDFD + BitVec.ofNat 16 2) (machine 0x3000 [(0, 0xFDFD)] [(0xFDFD, 0x0048), (0xFDFE, 0x0069)]) = 0 ∧
    rawWord (readReg 0 State.reset) State.reset = 0 := by
  refine ⟨by simp, fun k h => ?_, by decide, by decide, by decide⟩
  simp only [List.length_cons, List.length_nil] at h
  obtain rfl | rfl : k = 0 ∨ k = 1 := by omega
  · exact ⟨by decide, by show _ = (0x0048 : Word); decide⟩
  · exact ⟨by decide, by show _ = (0x0069 : Word); decide⟩

/-- PutspWritesThePackedStringAtR0: the pair (H, i) and the last byte '!', at 0x4000; and an end without a last byte whose
high byte is not zero. -/
theorem witness_packed_string :
    (∀ q ∈ [((0x48 : Byte), (0x69 : Byte))], q.1 ≠ 0 ∧ q.2 ≠ 0) ∧
    (∀ b, some (0x21 : Byte) = some b → b ≠ 0 ∧ (0 : Byte) = 0) ∧
    (∀ k, (h : k < [((0x48 : Byte), (0x69 : Byte))].length) →
      readReg 0 (machine 0x3000 [(0, 0x4000)] [(0x4000, 0x6948), (0x4001, 0x0021)]) + BitVec.ofNat 16 k ≠ Config.kbsrAddr ∧
      (rawWord (readReg 0 (machine 0x3000 [(0, 0x4000)] [(0x4000, 0x6948), (0x4001, 0x0021)]) + BitVec.ofNat 16 k)
        (machine 0x3000 [(0, 0x4000)] [(0x4000, 0x6948), (0x4001, 0x0021)])).toNat =
          [((0x48 : Byte), (0x69 : Byte))][k].2.toNat * 256 + [((0x48 : Byte), (0x69 : Byte))][k].1.toNat) ∧
    (0x4000 : Word) + BitVec.ofNat 16 1 ≠ Config.kbsrAddr ∧
    (rawWord (0x4000 + BitVec.ofNat 16 1) (machine 0x3000 [(0, 0x4000)] [(0x4000, 0x6948), (0x4001, 0x0021)])).toNat =
      (0 : Byte).toNat * 256 + ((some 0x21).getD (0 : Byte)).toNat ∧
    (0x4100 : Word).toNat = (0x41 : Byte).toNat * 256 + (none.getD (0 : Byte)).toNat := by
  refine ⟨by simp, by simp, fun k h => ?_, by decide, by decide, by decide⟩
  simp only [List.length_cons, List.length_nil] at h
  have hk : k = 0 := by omega
  subst hk
  exact ⟨by decide, by show _ = (0x69 : Byte).toNat * 256 + (0x48 : Byte).toNat; decide⟩

/-- A memory with every word 0x0101. -/
def fullMemory : Memory := (List.range 65536).map fun k => (k, 0x0101)

theorem get_of_all {m : Memory} {v a : Word} (hv : ∀ c ∈ m, c.2 = v) (ha : ∃ c ∈ m, c.1 = a.toNat) : m.get a = v := by
  induction m with
  | nil => simp at ha
  | cons c rest ih =>
    by_cases hc : c.1 = a.toNat
    · simp only [Memory.get, hc, if_true]
      exact hv c (by simp)
    · simp only [Memory.get, hc, if_false]
      refine ih (fun d hd => hv d (by simp [hd])) ?_
      obtain ⟨d, hd, hda⟩ := ha
      rcases List.mem_cons.mp hd with rfl | hd
      · exact absurd hda hc
      · exact ⟨d, hd, hda⟩

theorem get_fullMemory (a : Word) : fullMemory.get a = 0x0101 := by
  refine get_of_all (fun c hc => ?_) ⟨(a.toNat, 0x0101), List.mem_map.mpr ⟨a.toNat, List.mem_range.mpr a.isLt, rfl⟩, rfl⟩
  obtain ⟨k, -, rfl⟩ := List.mem_map.mp hc
  rfl

/-- State.reset with a memory. -/
def resetWith (m : Memory) : State := { State.reset with mem := m }

/-- A state whose every word is 0x0101, whose host answers every read with the end of input and accepts every write. -/
structure Full (s : State) : Prop where
  words : ∀ a, rawWord a s = 0x0101
  input : s.console.input = []
  tail : s.console.tail = some .endOfInput
  accepting : s.console.failingWrite = none

theorem Full.read {s : State} (h : Full s) (site : Site) (a : Word) : memRead site a s = .ok 0x0101 s := by
  have hr : consoleRead s = .ok .endOfInput s := by simp [consoleRead, h.input, h.tail]
  simp only [memRead, hr, h.words, Result.bind_ok, ite_self]

theorem Full.write {s : State} (h : Full s) (site : Site) (b : Byte) :
    ∃ t, consoleWrite site b s = .ok () t ∧ Full t :=
  ⟨setConsole { s.console with output := s.console.output ++ [b] } s,
    by simp only [consoleWrite, h.accepting], h.words, h.input, h.tail, h.accepting⟩

theorem full_resetWith {m : Memory} (h : ∀ a, m.get a = 0x0101) : Full (resetWith m) := ⟨h, rfl, rfl, rfl⟩

theorem Full.puts {site : Site} (bound : Nat) : ∀ {s : State}, Full s → ∀ a,
    walk site (putsWord site) bound a s = .stuck .serviceNeverEnds := by
  induction bound with
  | zero => intros; rfl
  | succ bound ih =>
    intro s h a
    obtain ⟨t, hw, ht⟩ := h.write site (loByte 0x0101)
    have h0 : (0x0101 : Word) ≠ 0 := by decide
    simp only [walk, h.read, Result.bind_ok, putsWord, if_neg h0, hw]
    exact ih ht _

theorem Full.putsp {site : Site} (bound : Nat) : ∀ {s : State}, Full s → ∀ a,
    walk site (putspWord site) bound a s = .stuck .serviceNeverEnds := by
  induction bound with
  | zero => intros; rfl
  | succ bound ih =>
    intro s h a
    obtain ⟨t, hw, ht⟩ := h.write site (loByte 0x0101)
    obtain ⟨u, hx, hu⟩ := ht.write site (hiByte 0x0101)
    have h0 : loByte 0x0101 ≠ 0 := by decide
    have h1 : hiByte 0x0101 ≠ 0 := by decide
    simp only [walk, h.read, Result.bind_ok, putspWord, if_neg h0, if_neg h1, hw, hx]
    exact ih hu _

/-- StringServiceCalledEndlessNeverEnds: with every word 0x0101, both services are called endless. -/
theorem witness_endless :
    exec .puts (resetWith fullMemory) = .fault .serviceNeverEnds ∧ exec .putsp (resetWith fullMemory) = .fault .serviceNeverEnds := by
  have h := full_resetWith get_fullMemory
  simp only [exec, execPuts, execPutsp, servicePuts, servicePutsp, h.puts, h.putsp, Result.thenDo_stuck, and_self]

/-- InPromptsReadsEchoesAndSetsR0 and HaltWritesTheNoticeAndHalts, where the host refuses the very next write: for every
prompt, the prompt's first byte or else the echo is refused. -/
theorem witness_refused_write (s : State) :
    (refusing 0 (listening [.byte 7] none s)).console.failingWrite = some 0 ∧
    (0 < Config.inPrompt.length ∨ 0 = Config.inPrompt.length ∧
      NextEvent (.byte 7) (refusing 0 (listening [.byte 7] none s)).console (refusing 0 (listening [] none s)).console) :=
  ⟨rfl, (Nat.eq_zero_or_pos _).elim (fun h => .inr ⟨h.symm, .inl ⟨_, rfl, rfl⟩⟩) .inl⟩

/-- InPromptsReadsEchoesAndSetsR0: a character, with room for the prompt and the echo; the end of input and an error, with
room for the prompt; no answer. -/
theorem witness_in :
    (∀ e, NextEvent e (listening [e] none State.reset).console (listening [] none State.reset).console) ∧
    (∀ k e, AcceptsWrites k (listening [e] none State.reset).console) ∧
    NeverAnswers (listening [] none State.reset).console ∧
    (∀ k, AcceptsWrites k (listening [] none State.reset).console) :=
  ⟨fun _ => .inl ⟨_, rfl, rfl⟩, fun _ _ _ h => (by cases h), ⟨rfl, rfl⟩, fun _ _ h => (by cases h)⟩

/-- OnlyTheNamedRegisterIsWritten, FlagsFollowTheFlagSettingWrites, OnlyControlTransfersWritePc, OnlyBrReadsCond,
OnlyStoresAndTheKeyboardChangeMemory, OutputOnlyGrowsAndOnlyInServices: next states of an instruction inside and one outside
each list. -/
theorem witness_whole_machine :
    (∃ t, exec (.addImm 1 0 5) State.reset = .next t ∧ t.engine = .running) ∧ State.reset.engine = .running ∧
    writtenReg (.addImm 1 0 5) ≠ some 0 ∧ setsFlags (.addImm 1 0 5) = true ∧ writesPc (.addImm 1 0 5) = false ∧
    (∃ t, exec (.st 1 5) State.reset = .next t) ∧ setsFlags (.st 1 5) = false ∧
    StoresTo (.st 1 5) State.reset 0x3005 ∧ ¬StoresTo (.st 1 5) State.reset 0x3004 ∧
    (∀ n z p o, Instr.getc ≠ .br n z p o) ∧ (∀ v, Instr.st 1 5 ≠ .trap v) ∧
    Instr.st 1 5 ∉ [Instr.out, .puts, .inChar, .putsp, .halt] ∧
    exec .getc (listening [] none State.reset) = .fault .blockedOnConsole :=
  ⟨⟨_, rfl, rfl⟩, rfl, by decide, rfl, rfl, ⟨_, rfl⟩, rfl, (by show _ = _; decide), (by show ¬ _ = _; decide),
    (fun _ _ _ _ h => by cases h), (fun _ h => by cases h), by decide, rfl⟩

/-- HaltedIsEnteredOnlyByHalt. -/
theorem witness_halted : ∃ t, step (running [] 0xFF25) = .next t ∧ Halted t := ⟨_, rfl, rfl⟩

/-- AbortedInstructionWritesNoRegister: GETC at the end of input. -/
theorem witness_aborted : State.reset.engine = .running ∧ ∃ t, exec .getc State.reset = .next t ∧ Aborted t :=
  ⟨rfl, _, rfl, _, _, rfl⟩

end Sys2Proof.Tests
end

section
/-! PROOFS. The condition flags (spec 10_state.md R38). -/

namespace Sys2Proof.Machine

/-- R38's test of bit 15 is the sign test of R10. -/
theorem toInt_neg_iff_getLsbD_15 (v : Word) : v.toInt < 0 ↔ v.getLsbD 15 = true := by
  have hmsb : v.getLsbD 15 = decide (v.toInt < 0) :=
    (BitVec.msb_eq_getLsbD_last v).symm.trans BitVec.msb_eq_toInt
  rw [hmsb, decide_eq_true_iff]

/-- The flag setcc computes is the one the statements speak of. -/
theorem flagFor_condOf (v : Word) : FlagFor v (condOf v) := by
  by_cases hsign : v.getLsbD 15 = true
  · exact .inl ⟨(toInt_neg_iff_getLsbD_15 v).mpr hsign, if_pos hsign⟩
  · have hnonneg : 0 ≤ v.toInt := not_lt.mp (mt (toInt_neg_iff_getLsbD_15 v).mp hsign)
    by_cases hzero : v = 0
    · subst hzero
      exact .inr (.inl ⟨rfl, rfl⟩)
    · have hne : v.toInt ≠ 0 := fun h => hzero (BitVec.toInt_inj.mp h)
      exact .inr (.inr ⟨lt_of_le_of_ne hnonneg hne.symm, by simp only [condOf, if_neg hsign, if_neg hzero]⟩)

end Sys2Proof.Machine

open Sys2Proof.Machine

/-- Settles O19: the flag is condOf's, and setcc leaves every other field. -/
theorem setccFollowsTheSignOfTheValue : Obligations.SetccFollowsTheSignOfTheValue :=
  fun v s => ⟨flagFor_condOf v, fun q => readReg_setcc s q v, setcc_pc s v, fun a => rawWord_setcc s a v,
    setcc_engine s v, setcc_console s v⟩

end

section
/-! PROOFS. Writing memory (spec 20_memory.md R64). -/

namespace Sys2Proof.Machine

/-- The rule of MemWrite, with its frame. -/
theorem wroteMem_memWrite (a v : Word) (s : State) : WroteMem a v s (memWrite a v s) := by
  have hwritten : rawWord a (memWrite a v s) = v := (rawWord_memWrite a a v s).trans (if_pos rfl)
  have hothers : SameMemBut a s (memWrite a v s) := fun b hb => (rawWord_memWrite a b v s).trans (if_neg hb)
  exact ⟨hwritten, hothers, fun q => readReg_memWrite s q a v, memWrite_pc s a v, memWrite_cond s a v,
    memWrite_engine s a v, memWrite_console s a v⟩

end Sys2Proof.Machine

open Sys2Proof.Machine

/-- Settles O7: the rule of MemWrite, and Memory.set keeps the canonical form. -/
theorem memWriteReplacesOneWordOnly : Obligations.MemWriteReplacesOneWordOnly :=
  fun a v s => ⟨wroteMem_memWrite a v s, fun hwf => Memory.set_wf hwf a v⟩

end

section
/-! PROOFS. The bits of a word that the statements speak of, and the decoder's fields (spec 00_scope.md R9,
30_encoding.md R102 to R106). -/

namespace Sys2Proof.Machine

variable {w : Word}

/-- The number R9 reads from a field's bits is the value of the field the decoder extracts. -/
theorem bitsOf_eq_toNat_extractLsb' (w : Word) (lo len : Nat) : bitsOf w lo len = (w.extractLsb' lo len).toNat := by
  rw [bitsOf, BitVec.extractLsb'_toNat, Nat.shiftRight_eq_div_pow]

theorem extractLsb'_of_bitsOf {lo len : Nat} {f : BitVec len} (h : bitsOf w lo len = f.toNat) :
    w.extractLsb' lo len = f :=
  BitVec.eq_of_toNat_eq ((bitsOf_eq_toNat_extractLsb' w lo len).symm.trans h)

theorem getLsbD_of_bitsOf {k : Nat} {b : Bool} (h : bitsOf w k 1 = b.toNat) : w.getLsbD k = b := by
  have hbit : (w.getLsbD k).toNat = bitsOf w k 1 := by
    rw [← BitVec.testBit_toNat, Nat.toNat_testBit, bitsOf, pow_one]
  exact Function.LeftInverse.injective Bool.ofNat_toNat (hbit.trans h)

theorem regField_of_bitsOf {lo : Nat} {r : Reg} (h : bitsOf w lo 3 = r) : regField lo w = r :=
  Fin.ext ((bitsOf_eq_toNat_extractLsb' w lo 3).symm.trans h)

theorem fieldDr_of_bitsOf {r : Reg} (h : bitsOf w 9 3 = r) : fieldDr w = r := regField_of_bitsOf h

theorem fieldSr1_of_bitsOf {r : Reg} (h : bitsOf w 6 3 = r) : fieldSr1 w = r := regField_of_bitsOf h

theorem fieldSr2_of_bitsOf {r : Reg} (h : bitsOf w 0 3 = r) : fieldSr2 w = r := regField_of_bitsOf h

theorem fieldImm5_of_bitsOf {i : BitVec 5} (h : bitsOf w 0 5 = i.toNat) : fieldImm5 w = i := extractLsb'_of_bitsOf h

/-- R102: the top four bits select the opcode. -/
theorem ofCode_opcodeField_of_bitsOf {o : Opcode} (h : bitsOf w 12 4 = o.code.toNat) :
    Opcode.ofCode (opcodeField w) = o := by
  have hcode : opcodeField w = o.code := extractLsb'_of_bitsOf h
  rw [hcode, Laws.Opcode.ofCode_code]

end Sys2Proof.Machine
end

section
/-! PROOFS. Decoding ADD, AND and NOT (spec 40_operate.md, the Encoding lines of R140 to R146): bit 5 selects the
form. -/

namespace Sys2Proof.Machine

variable {w : Word} {dr sr1 sr2 : Reg} {imm5 : BitVec 5}

theorem decode_of_add (hop : bitsOf w 12 4 = 1) :
    decode w = if w.getLsbD 5 then .addImm (fieldDr w) (fieldSr1 w) (fieldImm5 w)
      else .addReg (fieldDr w) (fieldSr1 w) (fieldSr2 w) := by
  have hadd : Opcode.ofCode (opcodeField w) = .add := ofCode_opcodeField_of_bitsOf hop
  rw [decode, hadd]

theorem decode_of_and (hop : bitsOf w 12 4 = 5) :
    decode w = if w.getLsbD 5 then .andImm (fieldDr w) (fieldSr1 w) (fieldImm5 w)
      else .andReg (fieldDr w) (fieldSr1 w) (fieldSr2 w) := by
  have hand : Opcode.ofCode (opcodeField w) = .and := ofCode_opcodeField_of_bitsOf hop
  rw [decode, hand]

theorem decode_of_not (hop : bitsOf w 12 4 = 9) : decode w = .not (fieldDr w) (fieldSr1 w) := by
  have hnot : Opcode.ofCode (opcodeField w) = .not := ofCode_opcodeField_of_bitsOf hop
  rw [decode, hnot]

/-- Bit 5 clear: the second operand is a register. -/
theorem not_getLsbD_five (hmode : bitsOf w 5 1 = 0) : ¬ w.getLsbD 5 = true :=
  Bool.eq_false_iff.mp (getLsbD_of_bitsOf hmode)

/-- Bit 5 set: the second operand is an immediate. -/
theorem getLsbD_five (hmode : bitsOf w 5 1 = 1) : w.getLsbD 5 = true := getLsbD_of_bitsOf hmode

theorem decode_eq_addReg (hop : bitsOf w 12 4 = 1) (hdr : bitsOf w 9 3 = dr) (hsr1 : bitsOf w 6 3 = sr1)
    (hmode : bitsOf w 5 1 = 0) (hsr2 : bitsOf w 0 3 = sr2) : decode w = .addReg dr sr1 sr2 := by
  rw [decode_of_add hop, if_neg (not_getLsbD_five hmode), fieldDr_of_bitsOf hdr, fieldSr1_of_bitsOf hsr1,
    fieldSr2_of_bitsOf hsr2]

theorem decode_eq_addImm (hop : bitsOf w 12 4 = 1) (hdr : bitsOf w 9 3 = dr) (hsr1 : bitsOf w 6 3 = sr1)
    (hmode : bitsOf w 5 1 = 1) (himm : bitsOf w 0 5 = imm5.toNat) : decode w = .addImm dr sr1 imm5 := by
  rw [decode_of_add hop, if_pos (getLsbD_five hmode), fieldDr_of_bitsOf hdr, fieldSr1_of_bitsOf hsr1,
    fieldImm5_of_bitsOf himm]

theorem decode_eq_andReg (hop : bitsOf w 12 4 = 5) (hdr : bitsOf w 9 3 = dr) (hsr1 : bitsOf w 6 3 = sr1)
    (hmode : bitsOf w 5 1 = 0) (hsr2 : bitsOf w 0 3 = sr2) : decode w = .andReg dr sr1 sr2 := by
  rw [decode_of_and hop, if_neg (not_getLsbD_five hmode), fieldDr_of_bitsOf hdr, fieldSr1_of_bitsOf hsr1,
    fieldSr2_of_bitsOf hsr2]

theorem decode_eq_andImm (hop : bitsOf w 12 4 = 5) (hdr : bitsOf w 9 3 = dr) (hsr1 : bitsOf w 6 3 = sr1)
    (hmode : bitsOf w 5 1 = 1) (himm : bitsOf w 0 5 = imm5.toNat) : decode w = .andImm dr sr1 imm5 := by
  rw [decode_of_and hop, if_pos (getLsbD_five hmode), fieldDr_of_bitsOf hdr, fieldSr1_of_bitsOf hsr1,
    fieldImm5_of_bitsOf himm]

theorem decode_eq_not (hop : bitsOf w 12 4 = 9) (hdr : bitsOf w 9 3 = dr) (hsr1 : bitsOf w 6 3 = sr1) :
    decode w = .not dr sr1 := by
  rw [decode_of_not hop, fieldDr_of_bitsOf hdr, fieldSr1_of_bitsOf hsr1]

end Sys2Proof.Machine
end

section
/-! PROOFS. Words as integers modulo 65536, and sign extension (spec 00_scope.md R11, R12). -/

namespace Sys2Proof.Machine

/-- An integer has exactly one word. -/
theorem isWord_iff_eq_ofInt {v : Word} {z : Int} : IsWord v z ↔ v = BitVec.ofInt 16 z := by
  have hvalue : ((BitVec.ofInt 16 z).toNat : Int) = z % 65536 := by
    rw [BitVec.toNat_ofInt]
    exact Int.toNat_of_nonneg (Int.emod_nonneg z (by decide))
  rw [IsWord, ← hvalue, Int.natCast_inj, BitVec.toNat_inj]

theorem ofInt_toNat (a : Word) : BitVec.ofInt 16 a.toNat = a := by
  rw [BitVec.ofInt_natCast, BitVec.ofNat_toNat, BitVec.setWidth_eq]

theorem isWord_add (a b : Word) : IsWord (a + b) (a.toNat + b.toNat) := by
  rw [isWord_iff_eq_ofInt, BitVec.ofInt_add, ofInt_toNat, ofInt_toNat]

/-- Sign extension keeps the signed value: adding the extended field adds that value modulo 65536. -/
theorem isWord_add_sext {k : Nat} (a : Word) (f : BitVec k) : IsWord (a + sext f) (a.toNat + f.toInt) := by
  have hsext : sext f = BitVec.ofInt 16 f.toInt := rfl
  rw [isWord_iff_eq_ofInt, BitVec.ofInt_add, ofInt_toNat, hsext]

/-- The bits of an extended field: its own, then copies of its sign bit. -/
theorem getLsbD_sext {n k : Nat} (f : BitVec (n + 1)) (hk : k < 16) : (sext f).getLsbD k = f.getLsbD (min k n) := by
  rw [sext, BitVec.getLsbD_signExtend, decide_eq_true hk, Bool.true_and]
  by_cases hown : k < n + 1
  · rw [if_pos hown, min_eq_left (Nat.le_of_lt_succ hown)]
  · rw [if_neg hown, min_eq_right (by omega), BitVec.msb_eq_getLsbD_last, Nat.add_sub_cancel]

end Sys2Proof.Machine
end

section
/-! PROOFS. ADD, AND, NOT (spec 40_operate.md R140 to R146): the flag-setting register write and the bits written. -/

namespace Sys2Proof.Machine

/-- The rule of a flag-setting register write, with its frame (R34, R39). -/
theorem wroteReg_writeRegCC (dr : Reg) (v : Word) (s : State) : WroteReg dr v s (writeRegCC dr v s) := by
  have hwritten : readReg dr (writeRegCC dr v s) = v := readReg_writeReg_self s dr v
  have hothers : SameRegsBut dr s (writeRegCC dr v s) := fun q hq => readReg_writeReg_ne s hq v
  exact ⟨hwritten, flagFor_condOf v, hothers, writeRegCC_pc s dr v, fun a => rawWord_writeRegCC s a dr v,
    writeRegCC_engine s dr v, writeRegCC_console s dr v⟩

section
variable (dr sr1 sr2 : Reg) (imm5 : BitVec 5) (s : State)

theorem exec_addReg : exec (.addReg dr sr1 sr2) s = .next (writeRegCC dr (readReg sr1 s + readReg sr2 s) s) := rfl

theorem exec_addImm : exec (.addImm dr sr1 imm5) s = .next (writeRegCC dr (readReg sr1 s + immOperand imm5) s) := rfl

theorem exec_andReg : exec (.andReg dr sr1 sr2) s = .next (writeRegCC dr (readReg sr1 s &&& readReg sr2 s) s) := rfl

theorem exec_andImm : exec (.andImm dr sr1 imm5) s = .next (writeRegCC dr (readReg sr1 s &&& immOperand imm5) s) := rfl

theorem exec_not : exec (.not dr sr1) s = .next (writeRegCC dr (~~~ readReg sr1 s) s) := rfl

end

/-- R144: bits 15:5 of the mask are the immediate's sign bit. -/
theorem getLsbD_and_immOperand (a : Word) (imm5 : BitVec 5) {k : Nat} (hk : k < 16) :
    (a &&& immOperand imm5).getLsbD k = (a.getLsbD k && imm5.getLsbD (min k 4)) := by
  rw [BitVec.getLsbD_and, immOperand, getLsbD_sext imm5 hk]

theorem getLsbD_complement (a : Word) {k : Nat} (hk : k < 16) : (~~~ a).getLsbD k = !a.getLsbD k := by
  rw [BitVec.getLsbD_not, decide_eq_true hk, Bool.true_and]

end Sys2Proof.Machine

open Sys2Proof.Machine

/-- Settles O20: both sources are read before the one register write. -/
theorem addRegisterForm : Obligations.AddRegisterForm := fun dr sr1 sr2 s =>
  ⟨fun _ => decode_eq_addReg, _, _, exec_addReg dr sr1 sr2 s, wroteReg_writeRegCC dr _ s, isWord_add _ _⟩

/-- Settles O21: adding the extended immediate adds its signed value. -/
theorem addImmediateForm : Obligations.AddImmediateForm := fun dr sr1 imm5 s =>
  ⟨fun _ => decode_eq_addImm, _, _, exec_addImm dr sr1 imm5 s, wroteReg_writeRegCC dr _ s, isWord_add_sext _ imm5⟩

/-- Settles O22: each bit of a conjunction of words. -/
theorem andRegisterForm : Obligations.AndRegisterForm := fun dr sr1 sr2 s =>
  ⟨fun _ => decode_eq_andReg, _, _, exec_andReg dr sr1 sr2 s, wroteReg_writeRegCC dr _ s,
    fun _ _ => BitVec.getLsbD_and⟩

/-- Settles O23: the mask is the sign-extended immediate. -/
theorem andImmediateForm : Obligations.AndImmediateForm := fun dr sr1 imm5 s =>
  ⟨fun _ => decode_eq_andImm, _, _, exec_andImm dr sr1 imm5 s, wroteReg_writeRegCC dr _ s,
    fun _ hk => getLsbD_and_immOperand _ imm5 hk⟩

/-- Settles O24: each bit of a 16-bit complement. -/
theorem notComplementsEveryBit : Obligations.NotComplementsEveryBit := fun dr sr s =>
  ⟨fun _ => decode_eq_not, _, _, exec_not dr sr s, wroteReg_writeRegCC dr _ s, fun _ hk => getLsbD_complement _ hk⟩

end

section
/-! PROOFS. Decoding LD, LDI, LDR, LEA, ST, STI, STR (spec 41_data_movement.md, the Encoding lines of R160 to R166). -/

namespace Sys2Proof.Machine

variable {w : Word} {dr sr baseR : Reg} {off9 : BitVec 9} {off6 : BitVec 6}

theorem fieldOff9_of_bitsOf (h : bitsOf w 0 9 = off9.toNat) : fieldOff9 w = off9 := extractLsb'_of_bitsOf h

theorem fieldOff6_of_bitsOf (h : bitsOf w 0 6 = off6.toNat) : fieldOff6 w = off6 := extractLsb'_of_bitsOf h

theorem decode_eq_ld (hop : bitsOf w 12 4 = 2) (hdr : bitsOf w 9 3 = dr) (hoff : bitsOf w 0 9 = off9.toNat) :
    decode w = .ld dr off9 := by
  have hld : Opcode.ofCode (opcodeField w) = .ld := ofCode_opcodeField_of_bitsOf hop
  rw [decode, hld, fieldDr_of_bitsOf hdr, fieldOff9_of_bitsOf hoff]

theorem decode_eq_ldi (hop : bitsOf w 12 4 = 10) (hdr : bitsOf w 9 3 = dr) (hoff : bitsOf w 0 9 = off9.toNat) :
    decode w = .ldi dr off9 := by
  have hldi : Opcode.ofCode (opcodeField w) = .ldi := ofCode_opcodeField_of_bitsOf hop
  rw [decode, hldi, fieldDr_of_bitsOf hdr, fieldOff9_of_bitsOf hoff]

theorem decode_eq_ldr (hop : bitsOf w 12 4 = 6) (hdr : bitsOf w 9 3 = dr) (hbase : bitsOf w 6 3 = baseR)
    (hoff : bitsOf w 0 6 = off6.toNat) : decode w = .ldr dr baseR off6 := by
  have hldr : Opcode.ofCode (opcodeField w) = .ldr := ofCode_opcodeField_of_bitsOf hop
  rw [decode, hldr, fieldDr_of_bitsOf hdr, fieldSr1_of_bitsOf hbase, fieldOff6_of_bitsOf hoff]

theorem decode_eq_lea (hop : bitsOf w 12 4 = 14) (hdr : bitsOf w 9 3 = dr) (hoff : bitsOf w 0 9 = off9.toNat) :
    decode w = .lea dr off9 := by
  have hlea : Opcode.ofCode (opcodeField w) = .lea := ofCode_opcodeField_of_bitsOf hop
  rw [decode, hlea, fieldDr_of_bitsOf hdr, fieldOff9_of_bitsOf hoff]

theorem decode_eq_st (hop : bitsOf w 12 4 = 3) (hsr : bitsOf w 9 3 = sr) (hoff : bitsOf w 0 9 = off9.toNat) :
    decode w = .st sr off9 := by
  have hst : Opcode.ofCode (opcodeField w) = .st := ofCode_opcodeField_of_bitsOf hop
  rw [decode, hst, fieldDr_of_bitsOf hsr, fieldOff9_of_bitsOf hoff]

theorem decode_eq_sti (hop : bitsOf w 12 4 = 11) (hsr : bitsOf w 9 3 = sr) (hoff : bitsOf w 0 9 = off9.toNat) :
    decode w = .sti sr off9 := by
  have hsti : Opcode.ofCode (opcodeField w) = .sti := ofCode_opcodeField_of_bitsOf hop
  rw [decode, hsti, fieldDr_of_bitsOf hsr, fieldOff9_of_bitsOf hoff]

theorem decode_eq_str (hop : bitsOf w 12 4 = 7) (hsr : bitsOf w 9 3 = sr) (hbase : bitsOf w 6 3 = baseR)
    (hoff : bitsOf w 0 6 = off6.toNat) : decode w = .str sr baseR off6 := by
  have hstr : Opcode.ofCode (opcodeField w) = .str := ofCode_opcodeField_of_bitsOf hop
  rw [decode, hstr, fieldDr_of_bitsOf hsr, fieldSr1_of_bitsOf hbase, fieldOff6_of_bitsOf hoff]

end Sys2Proof.Machine
end

section
/-! PROOFS. The addressing modes as sums modulo 65536 (spec 41_data_movement.md R167). -/

namespace Sys2Proof.Machine

variable {s : State} {a : Word} {baseR : Reg} {off9 : BitVec 9} {off6 : BitVec 6}

theorem IsWord.unique {v w : Word} {z : Int} (hv : IsWord v z) (hw : IsWord w z) : v = w :=
  (isWord_iff_eq_ofInt.mp hv).trans (isWord_iff_eq_ofInt.mp hw).symm

theorem isWord_pcRelative9 (off9 : BitVec 9) (s : State) : IsWord (pcRelative9 off9 s) (s.pc.toNat + off9.toInt) :=
  isWord_add_sext s.pc off9

theorem isWord_baseOffset (baseR : Reg) (off6 : BitVec 6) (s : State) :
    IsWord (baseOffset baseR off6 s) ((readReg baseR s).toNat + off6.toInt) :=
  isWord_add_sext (readReg baseR s) off6

theorem pcRelative9_of_isWord (ha : IsWord a (s.pc.toNat + off9.toInt)) : pcRelative9 off9 s = a :=
  (isWord_pcRelative9 off9 s).unique ha

theorem baseOffset_of_isWord (ha : IsWord a ((readReg baseR s).toNat + off6.toInt)) : baseOffset baseR off6 s = a :=
  (isWord_baseOffset baseR off6 s).unique ha

end Sys2Proof.Machine
end

section
/-! PROOFS. LD, LDI, LDR, LEA, ST, STI, STR (spec 41_data_movement.md R160 to R166): what follows the reads of a load
and of STI, and what runs where a read fails. -/

namespace Sys2Proof.Machine

/-- How LD, LDI and LDR end: their last read, and what it gives into dr, with its flag. -/
def readInto (dr : Reg) (site : Site) (a : Word) (s : State) : Outcome :=
  (memRead site a s).thenDo fun v u => .next (writeRegCC dr v u)

section
variable (dr sr baseR : Reg) (off9 : BitVec 9) (off6 : BitVec 6) (s : State)

theorem exec_ld : exec (.ld dr off9) s = readInto dr (instrSite s) (pcRelative9 off9 s) s := rfl

theorem exec_ldi : exec (.ldi dr off9) s =
    (memRead (instrSite s) (pcRelative9 off9 s) s).thenDo fun p u => readInto dr (instrSite u) p u := rfl

theorem exec_ldr : exec (.ldr dr baseR off6) s = readInto dr (instrSite s) (baseOffset baseR off6 s) s := rfl

theorem exec_lea : exec (.lea dr off9) s = .next (writeRegCC dr (pcRelative9 off9 s) s) := rfl

theorem exec_st : exec (.st sr off9) s = .next (memWrite (pcRelative9 off9 s) (readReg sr s) s) := rfl

theorem exec_sti : exec (.sti sr off9) s =
    (memRead (instrSite s) (pcRelative9 off9 s) s).thenDo fun p u => .next (memWrite p (readReg sr u) u) := rfl

theorem exec_str : exec (.str sr baseR off6) s = .next (memWrite (baseOffset baseR off6 s) (readReg sr s) s) := rfl

end

section
variable {site : Site} {a : Word} {s u : State}

theorem readInto_of_ok {v : Word} (dr : Reg) (h : memRead site a s = .ok v u) :
    ∃ t, readInto dr site a s = .next t ∧ WroteReg dr v u t :=
  ⟨writeRegCC dr v u, by rw [readInto, h, Result.thenDo_ok], wroteReg_writeRegCC dr v u⟩

theorem readInto_of_abort (dr : Reg) (h : memRead site a s = .abort u) : readInto dr site a s = .next u := by
  rw [readInto, h, Result.thenDo_abort]

theorem readInto_of_stuck {f : Fault} (dr : Reg) (h : memRead site a s = .stuck f) :
    readInto dr site a s = .fault f := by
  rw [readInto, h, Result.thenDo_stuck]

theorem readInto_plain (dr : Reg) (site : Site) (s : State) (ha : a ≠ Config.kbsrAddr) :
    ∃ t, readInto dr site a s = .next t ∧ WroteReg dr (rawWord a s) s t :=
  readInto_of_ok dr (memRead_plain ha site s)

/-- LDI's second read is at the site of its first: a read does not move pc (R35). -/
theorem exec_ldi_of_pointer {dr : Reg} {off9 : BitVec 9} {p : Word}
    (h : memRead (instrSite s) (pcRelative9 off9 s) s = .ok p u) :
    exec (.ldi dr off9) s = readInto dr (instrSite s) p u := by
  rw [exec_ldi, h, Result.thenDo_ok, (memRead_io h).1.instrSite_eq]

/-- STI stores the value SR had before the instruction: a read writes no register (R33). -/
theorem exec_sti_of_pointer {sr : Reg} {off9 : BitVec 9} {p : Word}
    (h : memRead (instrSite s) (pcRelative9 off9 s) s = .ok p u) :
    ∃ t, exec (.sti sr off9) s = .next t ∧ WroteMem p (readReg sr s) u t := by
  have hsource : readReg sr u = readReg sr s := by rw [readReg, readReg, (memRead_io h).1.regs]
  exact ⟨memWrite p (readReg sr s) u, by rw [exec_sti, h, Result.thenDo_ok, hsource], wroteMem_memWrite p _ u⟩

/-- A read that fails has taken an error from the host and stored nothing (R63). -/
theorem sameMem_of_memRead_abort (h : memRead site a s = .abort u) : SameMem s u := by
  obtain ⟨-, -, -, -, hmem⟩ := memRead_ioAbort h
  exact fun b => by rw [rawWord, rawWord, hmem]

end

end Sys2Proof.Machine

open Sys2Proof.Machine

/-- Settles O25: LD is one read into DR. -/
theorem ldLoadsFromPcPlusOffset : Obligations.LdLoadsFromPcPlusOffset := by
  intro dr off9 s a ha
  rw [exec_ld, pcRelative9_of_isWord ha]
  exact ⟨fun _ => decode_eq_ld, readInto_plain dr _ s, fun _ _ => readInto_of_ok dr, fun _ => readInto_of_abort dr,
    fun _ => readInto_of_stuck dr⟩

/-- Settles O26: where the pointer's read goes on, LDI is one read into DR, from the state that read left. -/
theorem ldiLoadsThroughThePointer : Obligations.LdiLoadsThroughThePointer := by
  intro dr off9 s a ha
  obtain rfl := pcRelative9_of_isWord ha
  refine ⟨fun _ => decode_eq_ldi, fun hpointer hvalue => ?plain, fun p u hread => ?goesOn, fun u hread => ?aborts,
    fun f hread => ?blocks⟩
  case plain =>
    rw [exec_ldi_of_pointer (memRead_plain hpointer _ s)]
    exact readInto_plain dr _ s hvalue
  case goesOn =>
    rw [exec_ldi_of_pointer hread]
    exact ⟨fun _ _ => readInto_of_ok dr, fun _ => readInto_of_abort dr, fun _ => readInto_of_stuck dr⟩
  case aborts => rw [exec_ldi, hread, Result.thenDo_abort]
  case blocks => rw [exec_ldi, hread, Result.thenDo_stuck]

/-- Settles O27: LDR is one read into DR, at an address formed before DR is written. -/
theorem ldrLoadsFromBasePlusOffset : Obligations.LdrLoadsFromBasePlusOffset := by
  intro dr baseR off6 s a ha
  rw [exec_ldr, baseOffset_of_isWord ha]
  exact ⟨fun _ => decode_eq_ldr, readInto_plain dr _ s, fun _ _ => readInto_of_ok dr, fun _ => readInto_of_abort dr,
    fun _ => readInto_of_stuck dr⟩

/-- Settles O28: LEA is a flag-setting register write of the address. -/
theorem leaGivesTheAddressWithoutReading : Obligations.LeaGivesTheAddressWithoutReading := fun dr off9 s =>
  ⟨fun _ => decode_eq_lea, _, _, exec_lea dr off9 s, wroteReg_writeRegCC dr _ s, isWord_pcRelative9 off9 s⟩

/-- Settles O29: ST is one MemWrite. -/
theorem stStoresAtPcPlusOffset : Obligations.StStoresAtPcPlusOffset := fun sr off9 s =>
  ⟨fun _ => decode_eq_st, _, _, exec_st sr off9 s, isWord_pcRelative9 off9 s, wroteMem_memWrite _ _ s⟩

/-- Settles O30: the store runs only where the pointer's read goes on, and a read that aborts stores nothing. -/
theorem stiStoresThroughThePointer : Obligations.StiStoresThroughThePointer := by
  intro sr off9 s a ha
  obtain rfl := pcRelative9_of_isWord ha
  refine ⟨fun _ => decode_eq_sti, fun hpointer => exec_sti_of_pointer (memRead_plain hpointer _ s),
    fun _ _ => exec_sti_of_pointer, fun u hread => ⟨?aborts, sameMem_of_memRead_abort hread⟩, fun f hread => ?blocks⟩
  case aborts => rw [exec_sti, hread, Result.thenDo_abort]
  case blocks => rw [exec_sti, hread, Result.thenDo_stuck]

/-- Settles O31: STR is one MemWrite. -/
theorem strStoresAtBasePlusOffset : Obligations.StrStoresAtBasePlusOffset := fun sr baseR off6 s =>
  ⟨fun _ => decode_eq_str, _, _, exec_str sr baseR off6 s, isWord_baseOffset baseR off6 s, wroteMem_memWrite _ _ s⟩

end

section
/-! PROOFS. Decoding BR, JMP and RET (spec 42_control.md, the Encoding lines of R190, R192 and R193). -/

namespace Sys2Proof.Machine

variable {w : Word}

theorem decode_eq_br {n z p : Bool} {off9 : BitVec 9} (hop : bitsOf w 12 4 = 0) (hn : bitsOf w 11 1 = n.toNat)
    (hz : bitsOf w 10 1 = z.toNat) (hp : bitsOf w 9 1 = p.toNat) (hoff : bitsOf w 0 9 = off9.toNat) :
    decode w = .br n z p off9 := by
  have hbr : Opcode.ofCode (opcodeField w) = .br := ofCode_opcodeField_of_bitsOf hop
  rw [decode, hbr, getLsbD_of_bitsOf hn, getLsbD_of_bitsOf hz, getLsbD_of_bitsOf hp, fieldOff9_of_bitsOf hoff]

theorem decode_eq_decodeJmp {baseR : Reg} (hop : bitsOf w 12 4 = 12) (hbase : bitsOf w 6 3 = baseR) :
    decode w = decodeJmp baseR := by
  have hjmp : Opcode.ofCode (opcodeField w) = .jmp := ofCode_opcodeField_of_bitsOf hop
  rw [decode, hjmp, fieldSr1_of_bitsOf hbase]

end Sys2Proof.Machine
end

section
/-! PROOFS. BR, JMP and RET (spec 42_control.md R190 to R193): the test of the mask, and the one write of pc. -/

namespace Sys2Proof.Machine

/-- Each flag has one bit, so the test looks at that flag's bit of the mask alone (R191). -/
@[simp] theorem branchTaken_n (n z p : Bool) : branchTaken n z p .n = n := by
  revert n z p; decide

@[simp] theorem branchTaken_z (n z p : Bool) : branchTaken n z p .z = z := by
  revert n z p; decide

@[simp] theorem branchTaken_p (n z p : Bool) : branchTaken n z p .p = p := by
  revert n z p; decide

theorem branchTaken_iff {n z p : Bool} {c : Cond} :
    branchTaken n z p c = true ↔ (n = true ∧ c = .n ∨ z = true ∧ c = .z ∨ p = true ∧ c = .p) := by
  cases c with
  | n => simp
  | z => simp
  | p => simp

theorem sameData_setPc (target : Word) (s : State) : SameData s (setPc target s) :=
  ⟨fun q => readReg_setPc s q target, setPc_cond s target, fun a => rawWord_setPc s a target⟩

theorem samePorts_setPc (target : Word) (s : State) : SamePorts s (setPc target s) :=
  ⟨setPc_engine s target, setPc_console s target⟩

section
variable {n z p : Bool} {off9 : BitVec 9} {s : State}

theorem exec_br_taken (h : branchTaken n z p s.cond = true) :
    exec (.br n z p off9) s = .next (setPc (pcRelative9 off9 s) s) :=
  congrArg Host.Outcome.next (if_pos h)

theorem exec_br_not_taken (h : ¬ branchTaken n z p s.cond = true) : exec (.br n z p off9) s = .next s :=
  congrArg Host.Outcome.next (if_neg h)

end

theorem exec_jmp (baseR : Reg) (s : State) : exec (.jmp baseR) s = .next (setPc (readReg baseR s) s) := rfl

theorem encode_ret : encode .ret = 0xC1C0 := by decide

/-- R193: RET has JMP R7's meaning. -/
theorem exec_ret (s : State) : exec .ret s = exec (.jmp 7) s := rfl

/-- R192, with its frame. -/
theorem exec_jmp_writes_pc_only (baseR : Reg) (s : State) :
    ∃ t, exec (.jmp baseR) s = .next t ∧ t.pc = readReg baseR s ∧ SameData s t ∧ SamePorts s t :=
  ⟨_, exec_jmp baseR s, setPc_pc s _, sameData_setPc _ s, samePorts_setPc _ s⟩

end Sys2Proof.Machine

open Sys2Proof.Machine

/-- Settles O32: a taken BR writes pc alone, one that is not taken writes nothing. -/
theorem brIsTakenExactlyOnAMaskedFlag : Obligations.BrIsTakenExactlyOnAMaskedFlag := by
  intro n z p off9 s
  refine ⟨fun _ => decode_eq_br, ?_⟩
  rw [← branchTaken_iff]
  by_cases htaken : branchTaken n z p s.cond = true
  · exact ⟨_, exec_br_taken htaken, sameData_setPc _ s, samePorts_setPc _ s, fun _ => isWord_pcRelative9 off9 s,
      fun hnot => absurd htaken hnot⟩
  · have hsame : SameData s s := ⟨fun _ => rfl, rfl, fun _ => rfl⟩
    exact ⟨s, exec_br_not_taken htaken, hsame, ⟨rfl, rfl⟩, fun h => absurd h htaken, fun _ => rfl⟩

/-- Settles O33: JMP writes pc alone, and RET's clauses are JMP R7's. -/
theorem jmpGoesToTheRegisterAndRetIsJmpR7 : Obligations.JmpGoesToTheRegisterAndRetIsJmpR7 := fun baseR s =>
  ⟨fun _ => decode_eq_decodeJmp, encode_ret, exec_jmp_writes_pc_only baseR s,
    exec_ret s ▸ exec_jmp_writes_pc_only 7 s, exec_ret s⟩

end

section
/-! PROOFS. Selecting TRAP's service (spec 43_trap.md R210, R218): the decoder spells a service by its vector, and
execTrap gives the vector the same meaning. -/

namespace Sys2Proof.Machine

variable {w : Word} {v : Byte} {s : State}

theorem fieldVector_of_bitsOf (h : bitsOf w 0 8 = v.toNat) : fieldVector w = v := extractLsb'_of_bitsOf h

theorem decode_eq_decodeTrap (hop : bitsOf w 12 4 = 15) (hv : bitsOf w 0 8 = v.toNat) : decode w = decodeTrap v := by
  have htrap : Opcode.ofCode (opcodeField w) = .trap := ofCode_opcodeField_of_bitsOf hop
  rw [decode, htrap, fieldVector_of_bitsOf hv]

theorem exec_trap (v : Byte) (s : State) : exec (.trap v) s = execTrap v s := rfl

theorem eq_of_isServiceVector (h : isServiceVector v = true) :
    v = 0x20 ∨ v = 0x21 ∨ v = 0x22 ∨ v = 0x23 ∨ v = 0x24 ∨ v = 0x25 := by
  revert v
  decide

/-- The decoder's choice of a spelling and execTrap's choice of a service are the same selection. -/
theorem exec_decodeTrap (v : Byte) (s : State) : exec (decodeTrap v) s = exec (.trap v) s := by
  cases h : isServiceVector v with
  | false => rw [Laws.decodeTrap_of_not_service h]
  | true => obtain rfl | rfl | rfl | rfl | rfl | rfl := eq_of_isServiceVector h <;> rfl

/-- TRAP with a vector of the value of k runs what k is decoded to. -/
theorem exec_trap_of_toNat_eq {k : Byte} (s : State) (h : v.toNat = k.toNat) :
    exec (.trap v) s = exec (decodeTrap k) s := by
  rw [exec_decodeTrap, BitVec.eq_of_toNat_eq h]

theorem isServiceVector_eq_false (h : v.toNat < 0x20 ∨ 0x25 < v.toNat) : isServiceVector v = false := by
  rw [← Bool.not_eq_true, isServiceVector, Bool.and_eq_true, decide_eq_true_iff, decide_eq_true_iff]
  omega

/-- R218: a vector without a service does nothing. -/
theorem exec_trap_of_not_service (s : State) (h : isServiceVector v = false) : exec (.trap v) s = .next s := by
  have hne : ∀ k : Byte, isServiceVector k = true → v ≠ k := fun k hk hvk => by
    rw [← hvk, h] at hk
    exact Bool.false_ne_true hk
  rw [exec_trap, execTrap, if_neg (hne 0x20 rfl), if_neg (hne 0x21 rfl), if_neg (hne 0x22 rfl), if_neg (hne 0x23 rfl),
    if_neg (hne 0x24 rfl), if_neg (hne 0x25 rfl)]

end Sys2Proof.Machine

open Sys2Proof.Machine

/-- Settles O36: a word and its vector run the same spelling, and outside the services' range no service is selected. -/
theorem trapRunsWhatTheLowByteSelects : Obligations.TrapRunsWhatTheLowByteSelects := fun s v =>
  ⟨fun _ hop hv => by rw [decode_eq_decodeTrap hop hv, exec_decodeTrap], exec_trap_of_toNat_eq (k := 0x20) s,
    exec_trap_of_toNat_eq (k := 0x21) s, exec_trap_of_toNat_eq (k := 0x22) s, exec_trap_of_toNat_eq (k := 0x23) s,
    exec_trap_of_toNat_eq (k := 0x24) s, exec_trap_of_toNat_eq (k := 0x25) s,
    fun hv => exec_trap_of_not_service s (isServiceVector_eq_false hv)⟩

end

section
/-! PROOFS. Writing bytes to the console (spec 00_scope.md R22; 43_trap.md R219), by the number of writes the host
accepts, and what such a write and a change of the engine state leave alone. -/

namespace Sys2Proof.Machine

variable {s t : State} {bs : List Byte}

/-- Every byte is sent where the host accepts as many writes. -/
theorem consoleWriteAll_of_accepts (site : Site) (h : AcceptsWrites bs.length s.console) :
    ∃ c, consoleWriteAll site bs s = .ok () (setConsole c s) ∧ Sent bs s.console c := by
  cases hf : s.console.failingWrite with
  | none =>
    exact ⟨{ s.console with output := s.console.output ++ bs }, by simp only [consoleWriteAll, hf],
      rfl, rfl, rfl, by simp only [hf, Option.map_none]⟩
  | some k =>
    exact ⟨{ s.console with failingWrite := some (k - bs.length), output := s.console.output ++ bs },
      by simp only [consoleWriteAll, hf, if_pos (h k hf)], rfl, rfl, rfl, by simp only [hf, Option.map_some]⟩

/-- Where the host refuses write n and the bytes reach it, the first n are sent and the write error is raised. -/
theorem consoleWriteAll_of_refuses {n : Nat} (site : Site) (hf : s.console.failingWrite = some n) (hn : n < bs.length) :
    ∃ c, consoleWriteAll site bs s = .abort (raiseIo site .writeError (setConsole c s)) ∧
      c.input = s.console.input ∧ c.output = s.console.output ++ bs.take n :=
  ⟨{ s.console with failingWrite := some 0, output := s.console.output ++ bs.take n },
    by simp only [consoleWriteAll, hf, if_neg (not_le.mpr hn)], rfl, rfl⟩

/-- One write is the writing of a list of one byte. -/
theorem consoleWrite_eq_consoleWriteAll (site : Site) (b : Byte) (s : State) :
    consoleWrite site b s = consoleWriteAll site [b] s := by
  match hf : s.console.failingWrite with
  | none => simp only [consoleWrite, consoleWriteAll, hf]
  | some 0 =>
    have hsame : setConsole { s.console with failingWrite := some 0, output := s.console.output ++ [] } s = s := by
      rw [List.append_nil, ← hf]
      rfl
    simp only [consoleWrite, consoleWriteAll, hf, List.take_zero, hsame]
    rfl
  | some (k + 1) =>
    have hroom : [b].length ≤ k + 1 := Nat.le_add_left 1 k
    simp only [consoleWrite, consoleWriteAll, hf, if_pos hroom]
    rfl

theorem sameData_setConsole (c : Console) (s : State) : SameData s (setConsole c s) :=
  ⟨fun q => readReg_setConsole s q c, setConsole_cond s c, fun a => rawWord_setConsole s a c⟩

theorem SameData.after_setEngine (h : SameData s t) (e : EngineState) : SameData s (setEngine e t) := by
  obtain ⟨hregs, hcond, hmem⟩ := h
  exact ⟨fun q => (readReg_setEngine t q e).trans (hregs q), (setEngine_cond t e).trans hcond,
    fun a => (rawWord_setEngine t a e).trans (hmem a)⟩

theorem SameData.after_raiseIo (h : SameData s t) (site : Site) (kind : IoKind) : SameData s (raiseIo site kind t) :=
  h.after_setEngine _

end Sys2Proof.Machine
end

section
/-! PROOFS. OUT and HALT (spec 43_trap.md R212, R217): each writes its bytes, and a refused write ends the run. -/

namespace Sys2Proof.Machine

variable {s : State}

theorem loByte_of_toNat {v : Word} {b : Byte} (h : b.toNat = v.toNat % 256) : loByte v = b := by
  have hbits : bitsOf v 0 8 = v.toNat % 256 := congrArg (· % 256) (Nat.div_one v.toNat)
  exact extractLsb'_of_bitsOf (hbits.trans h.symm)

theorem exec_out (s : State) : exec .out s =
    (consoleWriteAll (serviceSite 0x21 s) [loByte (readReg 0 s)] s).thenDo fun _ u => .next u := by
  rw [← consoleWrite_eq_consoleWriteAll]
  rfl

theorem exec_halt (s : State) : exec .halt s =
    (consoleWriteAll (serviceSite 0x25 s) Config.haltNotice s).thenDo fun _ u => .next (setEngine .halted u) := rfl

theorem exec_halt_of_accepts (h : AcceptsWrites Config.haltNotice.length s.console) :
    ∃ t, exec .halt s = .next t ∧ Halted t ∧ Sent Config.haltNotice s.console t.console ∧ SameData s t ∧
      t.pc = s.pc := by
  obtain ⟨c, hwrite, hsent⟩ := consoleWriteAll_of_accepts (serviceSite 0x25 s) h
  exact ⟨setEngine .halted (setConsole c s), by rw [exec_halt, hwrite, Result.thenDo_ok], rfl, hsent,
    (sameData_setConsole c s).after_setEngine .halted, rfl⟩

end Sys2Proof.Machine

open Sys2Proof Sys2Proof.Machine

/-- Settles O38: OUT is the writing of one byte, so a host that refuses write 0 refuses it. -/
theorem outWritesTheLowByteOfR0 : Obligations.OutWritesTheLowByteOfR0 := by
  intro s b hb
  rw [exec_out, loByte_of_toNat hb]
  refine ⟨fun haccepts => ?accepted, fun hrefuses => ?refused⟩
  case accepted =>
    obtain ⟨c, hwrite, hsent⟩ := consoleWriteAll_of_accepts (bs := [b]) (serviceSite 0x21 s) haccepts
    exact ⟨setConsole c s, by rw [hwrite, Result.thenDo_ok], hsent, sameData_setConsole c s, rfl, rfl⟩
  case refused =>
    obtain ⟨c, hwrite, hinput, houtput⟩ :=
      consoleWriteAll_of_refuses (bs := [b]) (serviceSite 0x21 s) hrefuses Nat.zero_lt_one
    rw [hwrite, Result.thenDo_abort]
    exact ⟨_, rfl, rfl, (sameData_setConsole c s).after_raiseIo _ _, rfl, hinput, _, houtput.symm⟩

/-- Settles O45: the notice reaches the refused write n exactly where n is less than its length. -/
theorem haltWritesTheNoticeAndHalts : Obligations.HaltWritesTheNoticeAndHalts := by
  refine fun s => ⟨exec_halt_of_accepts, fun n hrefuses => ?_⟩
  by_cases hn : n < Config.haltNotice.length
  · obtain ⟨c, hwrite, hinput, houtput⟩ := consoleWriteAll_of_refuses (serviceSite 0x25 s) hrefuses hn
    rw [exec_halt, hwrite, Result.thenDo_abort]
    refine ⟨_, rfl, (sameData_setConsole c s).after_raiseIo _ _, rfl, hinput, houtput ▸ List.prefix_rfl, ?_⟩
    rw [if_pos hn]
    rfl
  · have haccepts : AcceptsWrites Config.haltNotice.length s.console := fun k hk => by
      obtain rfl : n = k := Option.some.inj (hrefuses.symm.trans hk)
      exact not_lt.mp hn
    obtain ⟨t, ht, hhalted, ⟨hinput, -, houtput, -⟩, hdata, hpc⟩ := exec_halt_of_accepts haccepts
    rw [List.take_of_length_le (not_lt.mp hn)]
    exact ⟨t, ht, hdata, hpc, hinput, houtput ▸ List.prefix_rfl, by rwa [if_neg hn]⟩

end

section
/-! PROOFS. The load port (spec 70_reset_and_hazards.md R281, R283, R284): the words of an image, what placing them
leaves at every address, and the state an accepted image gives. -/

namespace Sys2Proof.Machine

/-! ### The words of an image (R281) -/

theorem toNat_append_bytes (hi lo : Byte) : (hi ++ lo : Word).toNat = hi.toNat * 256 + lo.toNat := by
  rw [BitVec.toNat_append, ← Nat.shiftLeft_add_eq_or_of_lt lo.isLt, Nat.shiftLeft_eq]

theorem length_imageWords (image : List Byte) : (imageWords image).length = image.length / 2 := by
  induction image using imageWords.induct with
  | case1 hi lo rest ih => simp only [imageWords, List.length_cons, ih]; omega
  | case2 => simp [imageWords]
  | case3 => rfl

/-- Word k stands in bytes 2k and 2k + 1, the high byte first. -/
theorem toNat_getD_imageWords {image : List Byte} {k : Nat} (hk : 2 * k + 1 < image.length) :
    ((imageWords image).getD k 0).toNat =
      (image.getD (2 * k) 0).toNat * 256 + (image.getD (2 * k + 1) 0).toNat := by
  induction image using imageWords.induct generalizing k with
  | case1 hi lo rest ih =>
    cases k with
    | zero => exact toNat_append_bytes hi lo
    | succ j =>
      have hj : 2 * j + 1 < rest.length := by simp only [List.length_cons] at hk; omega
      exact ih hj
  | case2 => simp at hk
  | case3 => simp at hk

/-! ### Placing the program words (R283) -/

theorem add_one_add_ofNat (a : Word) (k : Nat) : a + 1 + BitVec.ofNat 16 k = a + BitVec.ofNat 16 (k + 1) := by
  rw [BitVec.add_assoc, Nat.add_comm k 1, BitVec.ofNat_add]
  rfl

/-- Placing words leaves every address that none of them covers. -/
theorem get_placeWords_of_not_covered {words : List Word} {a b : Word} {m : Memory}
    (hb : ∀ k < words.length, b ≠ a + BitVec.ofNat 16 k) : (placeWords words a m).get b = m.get b := by
  induction words generalizing a m with
  | nil => rfl
  | cons w rest ih =>
    have hrest : ∀ k < rest.length, b ≠ a + 1 + BitVec.ofNat 16 k := fun k hk => by
      rw [add_one_add_ofNat]
      exact hb (k + 1) (Nat.succ_lt_succ hk)
    have hfirst : b ≠ a := by simpa using hb 0 (Nat.succ_pos _)
    exact (ih hrest).trans (Memory.get_set_ne m hfirst w)

/-- Word k stands at a + k: no later word comes round to its address, since there are no more words than addresses. -/
theorem get_placeWords_of_covered {words : List Word} {a : Word} {m : Memory} {k : Nat}
    (hlen : words.length ≤ 65536) (hk : k < words.length) :
    (placeWords words a m).get (a + BitVec.ofNat 16 k) = words.getD k 0 := by
  induction words generalizing a m k with
  | nil => exact absurd hk (Nat.not_lt_zero k)
  | cons w rest ih =>
    rw [List.length_cons] at hlen hk
    cases k with
    | zero =>
      have hkept : ∀ j < rest.length, a ≠ a + 1 + BitVec.ofNat 16 j := fun j hj => by
        rw [add_one_add_ofNat]
        bv_omega
      rw [BitVec.ofNat_eq_ofNat, BitVec.add_zero]
      exact (get_placeWords_of_not_covered hkept).trans (Memory.get_set_self m a w)
    | succ j =>
      rw [← add_one_add_ofNat]
      exact ih (by omega) (by omega)

/-! ### Accepted images (R282, R284) -/

theorem length_le_of_not_overflows {origin : Word} {n : Nat} (h : overflows origin n = false) : n ≤ 65536 := by
  simp only [overflows, Bool.and_eq_false_iff, decide_eq_false_iff_not] at h
  omega

variable {image : List Byte} {regInit : Vector Word 8} {condInit : Cond} {console : Console} {s : State}

/-- The images the load port accepts, and the state each gives. -/
theorem load_eq_ok_iff : load image regInit condInit console = .ok s ↔
    image.length % 2 ≠ 1 ∧ ∃ origin program, imageWords image = origin :: program ∧
      overflows origin program.length = false ∧ loaded origin program regInit condInit console = s := by
  unfold load
  by_cases hodd : image.length % 2 = 1
  · simp [hodd]
  · cases hwords : imageWords image with
    | nil => simp [hodd]
    | cons origin program => cases hover : overflows origin program.length <;> simp [hodd, hover]

/-- A program word's index, in bytes of the image and in words of the program. -/
theorem lt_length_program_iff {origin : Word} {program : List Word} (hwords : imageWords image = origin :: program)
    (k : Nat) : 2 * k + 3 < image.length ↔ k < program.length := by
  have hlen := length_imageWords image
  rw [hwords, List.length_cons] at hlen
  omega

theorem toNat_origin {origin : Word} {program : List Word} (hwords : imageWords image = origin :: program) :
    origin.toNat = (image.getD 0 0).toNat * 256 + (image.getD 1 0).toNat := by
  have hlen := length_imageWords image
  rw [hwords, List.length_cons] at hlen
  have horigin := toNat_getD_imageWords (image := image) (k := 0) (by omega)
  rwa [hwords] at horigin

theorem toNat_getD_program {origin : Word} {program : List Word} (hwords : imageWords image = origin :: program)
    {k : Nat} (hk : 2 * k + 3 < image.length) : (program.getD k 0).toNat =
      (image.getD (2 * k + 2) 0).toNat * 256 + (image.getD (2 * k + 3) 0).toNat := by
  have hword := toNat_getD_imageWords (image := image) (k := k + 1) hk
  rwa [hwords] at hword

end Sys2Proof.Machine

open Sys2Proof Sys2Proof.Machine

/-- Settles O1: an accepted image has no more program words than there are addresses, so no word is placed over another;
the rest of memory is as it was, empty. -/
theorem acceptedImageGivesTheResetState : Obligations.AcceptedImageGivesTheResetState := by
  intro image regInit condInit console s hload
  obtain ⟨-, origin, program, hwords, hfits, rfl⟩ := load_eq_ok_iff.mp hload
  refine ⟨toNat_origin hwords, rfl, rfl, rfl, rfl, fun k hk => ?covered, fun a ha => ?uncovered⟩
  case covered =>
    have hplaced := get_placeWords_of_covered (a := origin) (m := []) (length_le_of_not_overflows hfits)
      ((lt_length_program_iff hwords k).mp hk)
    exact (congrArg BitVec.toNat hplaced).trans (toNat_getD_program hwords hk)
  case uncovered =>
    exact get_placeWords_of_not_covered fun k hk => ha k ((lt_length_program_iff hwords k).mpr hk)

end

section
/-! PROOFS. The invariant of every step (spec 60_exceptions.md R251, R252; 90_conflicts.md C7). -/

namespace Sys2Proof.Machine

variable {i : Instr} {s t u : State}

theorem abortRecordOk_of_not_aborted (h : ¬ Aborted t) : AbortRecordOk t := by
  unfold AbortRecordOk
  cases he : t.engine with
  | running => trivial
  | halted => trivial
  | aborted reason ia => exact absurd ⟨reason, ia, he⟩ h

/-- The record of an I/O failure raised at `site` with pc at p. -/
theorem abortRecordOk_of_engine {site : Site} {kind : IoKind} {p : Word}
    (he : t.engine = .aborted (.ioFailure kind site.vector p) site.ia) (hpc : p = t.pc)
    (hcause : (kind = .readError ∧ site.vector = none ∧ ((p = site.ia ∧ site.ia = Config.kbsrAddr) ∨ p = site.ia + 1)) ∨
      ∃ v, site.vector = some v ∧ ServiceRaises kind v ∧ p = site.ia + 1) : AbortRecordOk t := by
  unfold AbortRecordOk
  rw [he]
  exact ⟨hpc, hcause⟩

/-- An instruction's own change raises nothing: it leaves the engine as it was or halts it. -/
theorem OwnEffect.engine (h : OwnEffect i s u t) :
    t.engine = u.engine ∨ (t.engine = .halted ∧ (i = .halt ∨ i = .trap 0x25)) := by
  cases h with
  | nothing => exact .inl rfl
  | halts _ hi => exact .inr ⟨rfl, hi⟩
  | register => exact .inl rfl
  | registerAndFlag => exact .inl rfl
  | memory => exact .inl rfl
  | jumps => exact .inl rfl
  | calls => exact .inl rfl

theorem OwnEffect.not_aborted (h : OwnEffect i s u t) (hu : u.engine = .running) : ¬ Aborted t := by
  rintro ⟨reason, ia, ht⟩
  obtain he | ⟨he, -⟩ := h.engine
  · rw [he, hu] at ht
    cases ht
  · rw [he] at ht
    cases ht

theorem OwnEffect.wf (h : OwnEffect i s u t) (hu : u.mem.wf) : t.mem.wf := by
  cases h with
  | nothing => exact hu
  | halts => exact hu
  | register => exact hu
  | registerAndFlag => exact hu
  | memory a v => exact Memory.set_wf hu a v
  | jumps => exact hu
  | calls => exact hu

/-- Every instruction of a RUNNING engine keeps the invariant: an abort's site is the instruction before pc. -/
theorem exec_inv (hrun : s.engine = .running) (hwf : s.mem.wf) (h : exec i s = .next t) : Inv t := by
  obtain ⟨u, hio, hown⟩ | ⟨site, P, habort, hia, hkinds⟩ := exec_next h
  · exact ⟨hown.wf (hio.wf hwf), abortRecordOk_of_not_aborted (hown.not_aborted (hio.engine.trans hrun))⟩
  · obtain ⟨-, hpc, -, hmem, -, -⟩ := habort.frame
    obtain ⟨kind, hkind, he⟩ := habort.engine
    have hnext : s.pc = site.ia + 1 := by rw [hia, BitVec.sub_add_cancel]
    refine ⟨hmem hwf, abortRecordOk_of_engine he hpc.symm ?_⟩
    obtain ⟨hv, rfl⟩ | ⟨v, hv, rfl⟩ := hkinds
    · exact .inl ⟨hkind, hv, .inr hnext⟩
    · exact .inr ⟨v, hv, hkind, hnext⟩

/-- A fetch that aborts keeps the invariant: it was at KBSR_ADDR, and pc has not moved (R261 item 1). -/
theorem fetch_abort_inv (hwf : s.mem.wf) (h : memRead (fetchSite s) s.pc s = .abort t) : Inv t := by
  obtain ⟨hkbsr, habort, -⟩ := memRead_ioAbort h
  obtain ⟨-, hpc, -, hmem, -, -⟩ := habort.frame
  obtain ⟨kind, hkind, he⟩ := habort.engine
  exact ⟨hmem hwf, abortRecordOk_of_engine he hpc.symm (.inl ⟨hkind, rfl, .inl ⟨rfl, hkbsr⟩⟩)⟩

end Sys2Proof.Machine

open Sys2Proof.Machine

/-- Settles O6: a step is a fetch that aborts, or a fetch that goes on and the decoded instruction. -/
theorem everyStepKeepsTheInvariant : Obligations.EveryStepKeepsTheInvariant := by
  rintro s t ⟨hwf, -⟩ hstep
  obtain ⟨hrun, hfetch | ⟨w, u, hfetch, hexec⟩⟩ := step_next hstep
  · exact fetch_abort_inv hwf hfetch
  · obtain ⟨hio, -⟩ := memRead_io hfetch
    have hrunning : (setPc (s.pc + 1) u).engine = .running := hio.engine.trans hrun
    exact exec_inv hrunning (hio.wf hwf) hexec

end

section
/-! PROOFS. Decoding JSR, JSRR, RTI and RES (42_control.md, the Encoding lines of R196, R197; 44_reserved.md). -/

namespace Sys2Proof.Machine

variable {w : Word}

theorem decode_of_jsr (hop : bitsOf w 12 4 = 4) :
    decode w = if w.getLsbD 11 then .jsr (fieldOff11 w) else .jsrr (fieldSr1 w) := by
  have hjsr : Opcode.ofCode (opcodeField w) = .jsr := ofCode_opcodeField_of_bitsOf hop
  rw [decode, hjsr]

theorem decode_eq_jsr {off11 : BitVec 11} (hop : bitsOf w 12 4 = 4) (hmode : bitsOf w 11 1 = 1)
    (hoff : bitsOf w 0 11 = off11.toNat) : decode w = .jsr off11 := by
  have hbit : w.getLsbD 11 = true := getLsbD_of_bitsOf hmode
  have hfield : fieldOff11 w = off11 := extractLsb'_of_bitsOf hoff
  rw [decode_of_jsr hop, if_pos hbit, hfield]

theorem decode_eq_jsrr {baseR : Reg} (hop : bitsOf w 12 4 = 4) (hmode : bitsOf w 11 1 = 0)
    (hbase : bitsOf w 6 3 = baseR) : decode w = .jsrr baseR := by
  have hbit : w.getLsbD 11 = false := getLsbD_of_bitsOf hmode
  rw [decode_of_jsr hop, if_neg (Bool.eq_false_iff.mp hbit), fieldSr1_of_bitsOf hbase]

theorem decode_eq_rti (hop : bitsOf w 12 4 = 8) : decode w = .rti := by
  have hrti : Opcode.ofCode (opcodeField w) = .rti := ofCode_opcodeField_of_bitsOf hop
  rw [decode, hrti]

theorem decode_eq_res (hop : bitsOf w 12 4 = 13) : decode w = .res := by
  have hres : Opcode.ofCode (opcodeField w) = .res := ofCode_opcodeField_of_bitsOf hop
  rw [decode, hres]

end Sys2Proof.Machine
end

section
/-! PROOFS. The fields of every instruction's word (spec 30_encoding.md R102 to R110): the encoder writes them, the
decoder reads them and nothing else. -/

namespace Sys2Proof.Machine

/-- A field of a word: the `len` bits from bit `lo` upward have the value `value`. -/
structure Field where
  lo : Nat
  len : Nat
  value : Nat

/-- The field stands in the word w (R9). -/
def Field.In (f : Field) (w : Word) : Prop := bitsOf w f.lo f.len = f.value

/-- The operand and mode fields of an instruction's word (R103). -/
def operandFields : Instr → List Field
  | .addReg dr sr1 sr2 => [⟨9, 3, dr⟩, ⟨6, 3, sr1⟩, ⟨5, 1, 0⟩, ⟨0, 3, sr2⟩]
  | .addImm dr sr1 imm5 => [⟨9, 3, dr⟩, ⟨6, 3, sr1⟩, ⟨5, 1, 1⟩, ⟨0, 5, imm5.toNat⟩]
  | .andReg dr sr1 sr2 => [⟨9, 3, dr⟩, ⟨6, 3, sr1⟩, ⟨5, 1, 0⟩, ⟨0, 3, sr2⟩]
  | .andImm dr sr1 imm5 => [⟨9, 3, dr⟩, ⟨6, 3, sr1⟩, ⟨5, 1, 1⟩, ⟨0, 5, imm5.toNat⟩]
  | .not dr sr => [⟨9, 3, dr⟩, ⟨6, 3, sr⟩]
  | .ld dr off9 => [⟨9, 3, dr⟩, ⟨0, 9, off9.toNat⟩]
  | .ldi dr off9 => [⟨9, 3, dr⟩, ⟨0, 9, off9.toNat⟩]
  | .ldr dr baseR off6 => [⟨9, 3, dr⟩, ⟨6, 3, baseR⟩, ⟨0, 6, off6.toNat⟩]
  | .lea dr off9 => [⟨9, 3, dr⟩, ⟨0, 9, off9.toNat⟩]
  | .st sr off9 => [⟨9, 3, sr⟩, ⟨0, 9, off9.toNat⟩]
  | .sti sr off9 => [⟨9, 3, sr⟩, ⟨0, 9, off9.toNat⟩]
  | .str sr baseR off6 => [⟨9, 3, sr⟩, ⟨6, 3, baseR⟩, ⟨0, 6, off6.toNat⟩]
  | .br n z p off9 => [⟨11, 1, n.toNat⟩, ⟨10, 1, z.toNat⟩, ⟨9, 1, p.toNat⟩, ⟨0, 9, off9.toNat⟩]
  | .jmp baseR => [⟨6, 3, baseR⟩]
  | .jsr off11 => [⟨11, 1, 1⟩, ⟨0, 11, off11.toNat⟩]
  | .jsrr baseR => [⟨11, 1, 0⟩, ⟨6, 3, baseR⟩]
  | .trap v => [⟨0, 8, v.toNat⟩]
  | .rti => []
  | .res => []
  | .ret => [⟨6, 3, 7⟩]
  | .getc => [⟨0, 8, 0x20⟩]
  | .out => [⟨0, 8, 0x21⟩]
  | .puts => [⟨0, 8, 0x22⟩]
  | .inChar => [⟨0, 8, 0x23⟩]
  | .putsp => [⟨0, 8, 0x24⟩]
  | .halt => [⟨0, 8, 0x25⟩]

/-- Every field of an instruction's word: the opcode in bits 15:12 (R102) and the operands. -/
def format (i : Instr) : List Field := ⟨12, 4, i.opcode.code.toNat⟩ :: operandFields i

/-! ### The encoder writes the fields -/

theorem toNat_append_eq_add {n m : Nat} (x : BitVec n) (y : BitVec m) :
    (x ++ y).toNat = x.toNat * 2 ^ m + y.toNat := by
  rw [BitVec.toNat_append, ← Nat.shiftLeft_add_eq_or_of_lt y.isLt, Nat.shiftLeft_eq]

theorem toNat_encode (i : Instr) : (encode i).toNat = i.opcode.code.toNat * 2 ^ 12 + (encodeOperands i).toNat :=
  toNat_append_eq_add _ _

theorem toNat_regBits (r : Reg) : (regBits r).toNat = r := rfl

theorem operandFields_encode (i : Instr) : ∀ f ∈ operandFields i, f.In (encode i) := by
  simp only [Field.In, bitsOf, toNat_encode]
  cases i with
  | rti | res => simp only [operandFields, List.not_mem_nil, IsEmpty.forall_iff, implies_true]
  | br n z p off9 =>
    have hn := n.toNat_lt
    have hz := z.toNat_lt
    have hp := p.toNat_lt
    simp only [operandFields, List.forall_mem_cons, List.not_mem_nil, IsEmpty.forall_iff, implies_true, and_true,
      encodeOperands, toNat_append_eq_add, BitVec.toNat_ofBool]
    omega
  | _ =>
    simp only [operandFields, List.forall_mem_cons, List.not_mem_nil, IsEmpty.forall_iff, implies_true, and_true,
      encodeOperands, toNat_append_eq_add, toNat_regBits, BitVec.toNat_ofNat]
    omega

theorem format_encode (i : Instr) : ∀ f ∈ format i, f.In (encode i) := by
  have hop : bitsOf (encode i) 12 4 = i.opcode.code.toNat := by
    rw [bitsOf_eq_toNat_extractLsb']
    exact congrArg BitVec.toNat (Laws.append_top _ _)
  exact List.forall_mem_cons.mpr ⟨hop, operandFields_encode i⟩

/-! ### The decoder reads the fields -/

variable {w : Word}

/-- A word in which every field of a well-formed instruction stands is decoded to it. -/
theorem decode_of_format {i : Instr} (hwf : i.wf = true) (h : ∀ f ∈ format i, f.In w) : decode w = i := by
  obtain ⟨hop, hops⟩ := List.forall_mem_cons.mp h
  cases i <;> simp only [operandFields, List.forall_mem_cons] at hops
  case addReg => obtain ⟨hdr, hsr1, hmode, hsr2, -⟩ := hops; exact decode_eq_addReg hop hdr hsr1 hmode hsr2
  case addImm => obtain ⟨hdr, hsr1, hmode, himm, -⟩ := hops; exact decode_eq_addImm hop hdr hsr1 hmode himm
  case andReg => obtain ⟨hdr, hsr1, hmode, hsr2, -⟩ := hops; exact decode_eq_andReg hop hdr hsr1 hmode hsr2
  case andImm => obtain ⟨hdr, hsr1, hmode, himm, -⟩ := hops; exact decode_eq_andImm hop hdr hsr1 hmode himm
  case not => obtain ⟨hdr, hsr, -⟩ := hops; exact decode_eq_not hop hdr hsr
  case ld => obtain ⟨hdr, hoff, -⟩ := hops; exact decode_eq_ld hop hdr hoff
  case ldi => obtain ⟨hdr, hoff, -⟩ := hops; exact decode_eq_ldi hop hdr hoff
  case ldr => obtain ⟨hdr, hbase, hoff, -⟩ := hops; exact decode_eq_ldr hop hdr hbase hoff
  case lea => obtain ⟨hdr, hoff, -⟩ := hops; exact decode_eq_lea hop hdr hoff
  case st => obtain ⟨hsr, hoff, -⟩ := hops; exact decode_eq_st hop hsr hoff
  case sti => obtain ⟨hsr, hoff, -⟩ := hops; exact decode_eq_sti hop hsr hoff
  case str => obtain ⟨hsr, hbase, hoff, -⟩ := hops; exact decode_eq_str hop hsr hbase hoff
  case br => obtain ⟨hn, hz, hp, hoff, -⟩ := hops; exact decode_eq_br hop hn hz hp hoff
  case jmp =>
    have hne : _ ≠ (7 : Reg) := bne_iff_ne.mp hwf
    rw [decode_eq_decodeJmp hop hops.1, Laws.decodeJmp_of_ne hne]
  case jsr => obtain ⟨hmode, hoff, -⟩ := hops; exact decode_eq_jsr hop hmode hoff
  case jsrr => obtain ⟨hmode, hbase, -⟩ := hops; exact decode_eq_jsrr hop hmode hbase
  case trap =>
    have hv : isServiceVector _ = false := (Bool.not_eq_true' _).mp hwf
    rw [decode_eq_decodeTrap hop hops.1, Laws.decodeTrap_of_not_service hv]
  case rti => exact decode_eq_rti hop
  case res => exact decode_eq_res hop
  case ret => exact decode_eq_decodeJmp (baseR := 7) hop hops.1
  case getc => exact decode_eq_decodeTrap (v := 0x20) hop hops.1
  case out => exact decode_eq_decodeTrap (v := 0x21) hop hops.1
  case puts => exact decode_eq_decodeTrap (v := 0x22) hop hops.1
  case inChar => exact decode_eq_decodeTrap (v := 0x23) hop hops.1
  case putsp => exact decode_eq_decodeTrap (v := 0x24) hop hops.1
  case halt => exact decode_eq_decodeTrap (v := 0x25) hop hops.1

/-- What holds of every service with its vector, and of TRAP with any other, holds of what a vector is decoded to. -/
theorem decodeTrap_cases {P : Byte → Instr → Prop} (hget : P 0x20 .getc) (hout : P 0x21 .out) (hputs : P 0x22 .puts)
    (hin : P 0x23 .inChar) (hputsp : P 0x24 .putsp) (hhalt : P 0x25 .halt)
    (htrap : ∀ v, isServiceVector v = false → P v (.trap v)) (v : Byte) : P v (decodeTrap v) := by
  cases h : isServiceVector v with
  | false => exact Laws.decodeTrap_of_not_service h ▸ htrap v h
  | true => obtain rfl | rfl | rfl | rfl | rfl | rfl := eq_of_isServiceVector h <;> assumption

/-- What holds of RET with R7, and of JMP with any other register, holds of what a base register is decoded to. -/
theorem decodeJmp_cases {P : Reg → Instr → Prop} (hret : P 7 .ret) (hjmp : ∀ r, r ≠ 7 → P r (.jmp r)) (r : Reg) :
    P r (decodeJmp r) := by
  by_cases h : r = 7
  · subst h; exact hret
  · exact Laws.decodeJmp_of_ne h ▸ hjmp r h

theorem wf_decode (w : Word) : (decode w).wf = true := by
  unfold decode
  cases Opcode.ofCode (opcodeField w) with
  | add | and | jsr => dsimp only; split <;> rfl
  | jmp => exact decodeJmp_cases (P := fun _ i => i.wf = true) rfl (fun _ => bne_iff_ne.mpr) _
  | trap =>
    exact decodeTrap_cases (P := fun _ i => i.wf = true) rfl rfl rfl rfl rfl rfl (fun _ => (Bool.not_eq_true' _).mpr) _
  | _ => rfl

theorem opcode_decode (w : Word) : (decode w).opcode = Opcode.ofCode (opcodeField w) := by
  unfold decode
  cases Opcode.ofCode (opcodeField w) with
  | add | and | jsr => dsimp only; split <;> rfl
  | jmp => exact decodeJmp_cases (P := fun _ i => i.opcode = .jmp) rfl (fun _ _ => rfl) _
  | trap => exact decodeTrap_cases (P := fun _ i => i.opcode = .trap) rfl rfl rfl rfl rfl rfl (fun _ _ => rfl) _
  | _ => rfl

theorem bitsOf_fieldDr (w : Word) : bitsOf w 9 3 = fieldDr w := bitsOf_eq_toNat_extractLsb' w 9 3

theorem bitsOf_fieldSr1 (w : Word) : bitsOf w 6 3 = fieldSr1 w := bitsOf_eq_toNat_extractLsb' w 6 3

theorem bitsOf_fieldSr2 (w : Word) : bitsOf w 0 3 = fieldSr2 w := bitsOf_eq_toNat_extractLsb' w 0 3

theorem bitsOf_fieldImm5 (w : Word) : bitsOf w 0 5 = (fieldImm5 w).toNat := bitsOf_eq_toNat_extractLsb' w 0 5

theorem bitsOf_fieldOff6 (w : Word) : bitsOf w 0 6 = (fieldOff6 w).toNat := bitsOf_eq_toNat_extractLsb' w 0 6

theorem bitsOf_fieldVector (w : Word) : bitsOf w 0 8 = (fieldVector w).toNat := bitsOf_eq_toNat_extractLsb' w 0 8

theorem bitsOf_fieldOff9 (w : Word) : bitsOf w 0 9 = (fieldOff9 w).toNat := bitsOf_eq_toNat_extractLsb' w 0 9

theorem bitsOf_fieldOff11 (w : Word) : bitsOf w 0 11 = (fieldOff11 w).toNat := bitsOf_eq_toNat_extractLsb' w 0 11

theorem bitsOf_one (w : Word) (k : Nat) : bitsOf w k 1 = (w.getLsbD k).toNat := by
  rw [← BitVec.testBit_toNat, Nat.toNat_testBit, bitsOf, pow_one]

theorem operandFields_decodeJmp (r : Reg) : operandFields (decodeJmp r) = [⟨6, 3, r⟩] :=
  decodeJmp_cases (P := fun r i => operandFields i = [⟨6, 3, r⟩]) rfl (fun _ _ => rfl) r

theorem operandFields_decodeTrap (v : Byte) : operandFields (decodeTrap v) = [⟨0, 8, v.toNat⟩] :=
  decodeTrap_cases (P := fun v i => operandFields i = [⟨0, 8, v.toNat⟩]) rfl rfl rfl rfl rfl rfl (fun _ _ => rfl) v

/-- Every operand field of the instruction a word is decoded to stands in the word. -/
theorem operandFields_decode (w : Word) : ∀ f ∈ operandFields (decode w), f.In w := by
  unfold decode
  cases Opcode.ofCode (opcodeField w) with
  | jmp => exact operandFields_decodeJmp _ ▸ List.forall_mem_singleton.mpr (bitsOf_fieldSr1 w)
  | trap => exact operandFields_decodeTrap _ ▸ List.forall_mem_singleton.mpr (bitsOf_fieldVector w)
  | add | and =>
    cases hmode : w.getLsbD 5 <;>
      simp only [Bool.false_eq_true, if_false, if_true, operandFields, List.forall_mem_cons, List.not_mem_nil,
        IsEmpty.forall_iff, implies_true, and_true, Field.In, bitsOf_one, hmode, Bool.toNat_true, Bool.toNat_false,
        bitsOf_fieldDr, bitsOf_fieldSr1, bitsOf_fieldSr2, bitsOf_fieldImm5]
  | jsr =>
    cases hmode : w.getLsbD 11 <;>
      simp only [Bool.false_eq_true, if_false, if_true, operandFields, List.forall_mem_cons, List.not_mem_nil,
        IsEmpty.forall_iff, implies_true, and_true, Field.In, bitsOf_one, hmode, Bool.toNat_true, Bool.toNat_false,
        bitsOf_fieldSr1, bitsOf_fieldOff11]
  | _ =>
    simp only [operandFields, List.forall_mem_cons, List.not_mem_nil, IsEmpty.forall_iff, implies_true, and_true,
      Field.In, bitsOf_one, bitsOf_fieldDr, bitsOf_fieldSr1, bitsOf_fieldOff6, bitsOf_fieldOff9]

theorem format_decode (w : Word) : ∀ f ∈ format (decode w), f.In w := by
  have hop : bitsOf w 12 4 = (decode w).opcode.code.toNat := by
    rw [opcode_decode, Laws.Opcode.code_ofCode]
    exact bitsOf_eq_toNat_extractLsb' w 12 4
  exact List.forall_mem_cons.mpr ⟨hop, operandFields_decode w⟩

end Sys2Proof.Machine
end

section
/-! PROOFS. The encoding (spec 30_encoding.md R102 to R112, decisions D1, D2, D21): decoding and encoding against the
formats, and the bits a format uses. -/

namespace Sys2Proof.Machine

variable {w : Word}

/-! ### The used bits (R111) -/

/-- A bit is used exactly where a field of the format covers it. -/
theorem getLsbD_usedBits_iff (i : Instr) :
    ∀ k < 16, (usedBits i).getLsbD k = true ↔ ∃ f ∈ format i, f.lo ≤ k ∧ k < f.lo + f.len := by
  cases i <;>
    simp only [format, usedBits, operandFields, List.mem_cons, List.not_mem_nil, exists_eq_or_imp, exists_eq_left,
      or_false] <;>
    decide

theorem and_eq_and_iff {x y m : Word} :
    x &&& m = y &&& m ↔ ∀ k < 16, m.getLsbD k = true → x.getLsbD k = y.getLsbD k := by
  simp only [BitVec.eq_of_getLsbD_eq_iff, BitVec.getLsbD_and]
  refine forall₂_congr fun k _ => ?_
  cases m.getLsbD k <;> simp

theorem bitsOf_eq_iff {x y : Word} {lo len : Nat} :
    bitsOf x lo len = bitsOf y lo len ↔ ∀ k, lo ≤ k → k < lo + len → x.getLsbD k = y.getLsbD k := by
  simp only [bitsOf_eq_toNat_extractLsb', BitVec.toNat_inj, BitVec.eq_of_getLsbD_eq_iff, BitVec.getLsbD_extractLsb']
  constructor
  · intro h k hlo hhi
    obtain ⟨j, rfl⟩ := Nat.exists_eq_add_of_le hlo
    have hj : j < len := by omega
    simpa only [hj, decide_true, Bool.true_and] using h j hj
  · intro h k hk
    rw [h (lo + k) (by omega) (by omega)]

/-- Two words agree on the bits an instruction uses exactly when they agree on its format's fields. -/
theorem and_usedBits_eq_iff (i : Instr) {x y : Word} : x &&& usedBits i = y &&& usedBits i ↔
    ∀ f ∈ format i, bitsOf x f.lo f.len = bitsOf y f.lo f.len := by
  rw [and_eq_and_iff]
  constructor
  · intro h f hf
    refine bitsOf_eq_iff.mpr fun k hlo hhi => ?_
    by_cases hk : k < 16
    · exact h k hk ((getLsbD_usedBits_iff i k hk).mpr ⟨f, hf, hlo, hhi⟩)
    · rw [BitVec.getLsbD_of_ge _ _ (not_lt.mp hk), BitVec.getLsbD_of_ge _ _ (not_lt.mp hk)]
  · intro h k hk hused
    obtain ⟨f, hf, hlo, hhi⟩ := (getLsbD_usedBits_iff i k hk).mp hused
    exact bitsOf_eq_iff.mp (h f hf) k hlo hhi

/-- The decoder looks at the used bits only. -/
theorem decode_eq_of_and_usedBits_eq {x : Word} (h : x &&& usedBits (decode w) = w &&& usedBits (decode w)) :
    decode x = decode w :=
  decode_of_format (wf_decode w) fun f hf => ((and_usedBits_eq_iff _).mp h f hf).trans (format_decode w f hf)

/-- Bits outside the used ones can take any value (D21). -/
theorem decode_xor_of_unused {x m : Word} (hm : m &&& usedBits (decode w) = 0) :
    decode (w ^^^ (x &&& m)) = decode w := by
  refine decode_eq_of_and_usedBits_eq (and_eq_and_iff.mpr fun k _ hused => ?_)
  have hk := congrArg (·.getLsbD k) hm
  simp only [BitVec.getLsbD_and, hused, Bool.and_true] at hk
  rw [BitVec.getLsbD_xor, BitVec.getLsbD_and, hk]
  simp

theorem usedBits_decodeJmp (r : Reg) : usedBits (decodeJmp r) = 0xF1C0 :=
  decodeJmp_cases (P := fun _ i => usedBits i = 0xF1C0) rfl (fun _ _ => rfl) r

theorem usedBits_decodeTrap (v : Byte) : usedBits (decodeTrap v) = 0xF0FF :=
  decodeTrap_cases (P := fun _ i => usedBits i = 0xF0FF) rfl rfl rfl rfl rfl rfl (fun _ _ => rfl) v

theorem usedBits_decode_of_register_form (hop : bitsOf w 12 4 = 1 ∨ bitsOf w 12 4 = 5) (hmode : bitsOf w 5 1 = 0) :
    usedBits (decode w) = 0xFFE7 := by
  obtain hadd | hand := hop
  · rw [decode_eq_addReg hadd (bitsOf_fieldDr w) (bitsOf_fieldSr1 w) hmode (bitsOf_fieldSr2 w), usedBits]
  · rw [decode_eq_andReg hand (bitsOf_fieldDr w) (bitsOf_fieldSr1 w) hmode (bitsOf_fieldSr2 w), usedBits]

theorem usedBits_decode_of_reserved (hop : bitsOf w 12 4 = 8 ∨ bitsOf w 12 4 = 13) : usedBits (decode w) = 0xF000 := by
  obtain hrti | hres := hop
  · rw [decode_eq_rti hrti, usedBits]
  · rw [decode_eq_res hres, usedBits]

end Sys2Proof.Machine

open Sys2Proof Sys2Proof.Machine

/-- Settles O10: the encoder writes every field of the format, and the decoder reads exactly those. -/
theorem decodeOfEncodeIsTheInstruction : Obligations.DecodeOfEncodeIsTheInstruction :=
  fun i hwf => decode_of_format hwf (format_encode i)

/-- Settles O11: the fields of the decoded instruction stand in the word and in its encoding alike. -/
theorem encodeOfDecodeKeepsEveryUsedBit : Obligations.EncodeOfDecodeKeepsEveryUsedBit := fun w =>
  ⟨wf_decode w, (and_usedBits_eq_iff _).mpr fun f hf => (format_encode _ f hf).trans (format_decode w f hf).symm⟩

/-- Settles O12: each mask lies outside the used bits of the instructions of its opcode. -/
theorem ignoredBitsDoNotChangeDecoding : Obligations.IgnoredBitsDoNotChangeDecoding := by
  intro w x
  refine ⟨fun hop hmode => decode_xor_of_unused ?registerForm, fun hop => decode_xor_of_unused ?not,
    fun hop => decode_xor_of_unused ?jmp, fun hop hmode => decode_xor_of_unused ?jsrr,
    fun hop => decode_xor_of_unused ?trap, fun hop => decode_xor_of_unused ?reserved⟩
  case registerForm => rw [usedBits_decode_of_register_form hop hmode]; decide
  case not => rw [decode_of_not hop, usedBits]; decide
  case jmp => rw [decode_eq_decodeJmp hop (bitsOf_fieldSr1 w), usedBits_decodeJmp]; decide
  case jsrr => rw [decode_eq_jsrr hop hmode (bitsOf_fieldSr1 w), usedBits]; decide
  case trap => rw [decode_eq_decodeTrap hop (bitsOf_fieldVector w), usedBits_decodeTrap]; decide
  case reserved => rw [usedBits_decode_of_reserved hop]; decide

/-- Settles O13: with the opcode and the mode bit given, the remaining fields can be anything. -/
theorem topBitsAndModeBitsSelectTheInstruction : Obligations.TopBitsAndModeBitsSelectTheInstruction := by
  intro w
  have hdr := bitsOf_fieldDr w
  have hsr1 := bitsOf_fieldSr1 w
  have hoff6 := bitsOf_fieldOff6 w
  have hoff9 := bitsOf_fieldOff9 w
  refine ⟨
    fun hop => ⟨_, _, _, _, decode_eq_br hop (bitsOf_one w 11) (bitsOf_one w 10) (bitsOf_one w 9) hoff9⟩,
    fun hop hmode => ⟨_, _, _, decode_eq_addReg hop hdr hsr1 hmode (bitsOf_fieldSr2 w)⟩,
    fun hop hmode => ⟨_, _, _, decode_eq_addImm hop hdr hsr1 hmode (bitsOf_fieldImm5 w)⟩,
    fun hop => ⟨_, _, decode_eq_ld hop hdr hoff9⟩,
    fun hop => ⟨_, _, decode_eq_st hop hdr hoff9⟩,
    fun hop hmode => ⟨_, decode_eq_jsr hop hmode (bitsOf_fieldOff11 w)⟩,
    fun hop hmode => ⟨_, decode_eq_jsrr hop hmode hsr1⟩,
    fun hop hmode => ⟨_, _, _, decode_eq_andReg hop hdr hsr1 hmode (bitsOf_fieldSr2 w)⟩,
    fun hop hmode => ⟨_, _, _, decode_eq_andImm hop hdr hsr1 hmode (bitsOf_fieldImm5 w)⟩,
    fun hop => ⟨_, _, _, decode_eq_ldr hop hdr hsr1 hoff6⟩,
    fun hop => ⟨_, _, _, decode_eq_str hop hdr hsr1 hoff6⟩,
    decode_eq_rti,
    fun hop => ⟨_, _, decode_eq_not hop hdr hsr1⟩,
    fun hop => ⟨_, _, decode_eq_ldi hop hdr hoff9⟩,
    fun hop => ⟨_, _, decode_eq_sti hop hdr hoff9⟩,
    fun hop => ?jmp,
    decode_eq_res,
    fun hop => ⟨_, _, decode_eq_lea hop hdr hoff9⟩,
    fun hop => ?trap⟩
  case jmp =>
    rw [decode_eq_decodeJmp hop hsr1]
    exact decodeJmp_cases (P := fun _ i => i = .ret ∨ ∃ b, i = .jmp b) (.inl rfl) (fun r _ => .inr ⟨r, rfl⟩) _
  case trap =>
    rw [decode_eq_decodeTrap hop (bitsOf_fieldVector w)]
    exact decodeTrap_cases (P := fun _ i => i ∈ [.getc, .out, .puts, .inChar, .putsp, .halt] ∨ ∃ v, i = .trap v)
      (.inl (by decide)) (.inl (by decide)) (.inl (by decide)) (.inl (by decide)) (.inl (by decide)) (.inl (by decide))
      (fun v _ => .inr ⟨v, rfl⟩) _

/-- Settles O14, by running the decoder on each word. -/
theorem sampleWordsDecodeAsTheSpecSays : Obligations.SampleWordsDecodeAsTheSpecSays := by
  unfold Obligations.SampleWordsDecodeAsTheSpecSays
  decide

/-- Settles O46: the opcode alone selects RTI and RES, and under NoOp their meaning is the state itself. -/
theorem reservedOpcodesDoNothing : Obligations.ReservedOpcodesDoNothing :=
  fun _ _ => ⟨decode_eq_rti, decode_eq_res, rfl, rfl⟩

end

section
/-! PROOFS. The load port's refusals, and the invariant at reset (spec 70_reset_and_hazards.md R282 to R284; 10_state.md
R50). -/

namespace Sys2Proof.Machine

variable {image : List Byte} {regInit : Vector Word 8} {condInit : Cond} {console : Console}

theorem load_eq_error_iff : (∃ e, load image regInit condInit console = .error e) ↔
    ¬ ∃ s, load image regInit condInit console = .ok s := by
  cases load image regInit condInit console <;> simp

theorem load_accepts_iff : (∃ s, load image regInit condInit console = .ok s) ↔
    image.length % 2 ≠ 1 ∧ ∃ origin program, imageWords image = origin :: program ∧
      overflows origin program.length = false := by
  simp only [load_eq_ok_iff]
  constructor
  · rintro ⟨s, heven, origin, program, hwords, hfits, -⟩
    exact ⟨heven, origin, program, hwords, hfits⟩
  · rintro ⟨heven, origin, program, hwords, hfits⟩
    exact ⟨_, heven, origin, program, hwords, hfits, rfl⟩

theorem overflows_eq_false_iff {origin : Word} {n : Nat} :
    overflows origin n = false ↔ ¬ (1 ≤ n ∧ 0xFFFF < origin.toNat + n - 1) := by
  simp [overflows]

theorem placeWords_wf {words : List Word} {a : Word} {m : Memory} (h : m.wf) : (placeWords words a m).wf := by
  induction words generalizing a m with
  | nil => exact h
  | cons w rest ih => exact ih (Memory.set_wf h a w)

theorem Memory.nil_wf : Memory.wf [] := ⟨.nil, fun _ h => absurd h List.not_mem_nil⟩

theorem inv_loaded (origin : Word) (program : List Word) : Inv (loaded origin program regInit condInit console) :=
  ⟨placeWords_wf Memory.nil_wf, trivial⟩

end Sys2Proof.Machine

open Sys2Proof Sys2Proof.Machine

/-- Settles O2: an image that has a first word and an even length is accepted unless its program overflows. -/
theorem loadPortRefusesExactlyTheInvalidImages : Obligations.LoadPortRefusesExactlyTheInvalidImages := by
  intro image regInit condInit console
  have hlen := length_imageWords image
  rw [load_eq_error_iff, load_accepts_iff]
  cases hwords : imageWords image with
  | nil =>
    rw [hwords, List.length_nil] at hlen
    simp only [reduceCtorEq, false_and, exists_false, and_false, not_false_iff, true_iff]
    omega
  | cons origin program =>
    rw [hwords, List.length_cons] at hlen
    rw [← toNat_origin hwords]
    simp only [List.cons.injEq, and_assoc, exists_and_left, exists_eq_left', overflows_eq_false_iff]
    omega

/-- Settles O5: the words are placed one MemWrite after another in an empty memory, and the engine runs. -/
theorem everyLoadedStateMeetsTheInvariant : Obligations.EveryLoadedStateMeetsTheInvariant := by
  intro image regInit condInit console s hload
  obtain ⟨-, origin, program, -, -, rfl⟩ := load_eq_ok_iff.mp hload
  exact inv_loaded origin program

/-- Settles O4: State.reset is a loaded state. -/
theorem resetMeetsTheInvariant : Obligations.ResetMeetsTheInvariant := inv_loaded State.originInit []

/-- Settles O3: State.reset is the loaded state of the origin 0x3000 and no program word. -/
theorem resetIsTheLoadOfAnOriginOnlyImage : Obligations.ResetIsTheLoadOfAnOriginOnlyImage := by
  have hregs : ∀ r, readReg r State.reset = 0 := by decide
  exact ⟨rfl, hregs, rfl, rfl, fun _ => rfl, rfl⟩

end

section
/-! PROOFS. The canonical form determines the memory (spec 20_memory.md R60; log 18). -/

namespace Sys2Proof.Machine

variable {m m' : Memory} {c c' : Nat × Word}

theorem Memory.wf_of_cons (h : Memory.wf (c :: m)) : m.wf :=
  ⟨h.1.of_cons, fun d hd => h.2 d (List.mem_cons_of_mem c hd)⟩

/-- The first listed word, read at its address. -/
theorem Memory.get_cons_self (h : Memory.wf (c :: m)) : Memory.get (c :: m) (BitVec.ofNat 16 c.1) = c.2 := by
  have haddr : (BitVec.ofNat 16 c.1).toNat = c.1 := Nat.mod_eq_of_lt (h.2 c List.mem_cons_self).1
  simp only [Memory.get, haddr, if_true]

/-- Below the first listed address, a canonical memory reads zero. -/
theorem Memory.get_below (h : Memory.wf (c :: m)) {a : Word} (ha : a.toNat < c.1) : Memory.get (c :: m) a = 0 := by
  refine Memory.get_of_not_listed fun d hd => ?_
  obtain rfl | hd := List.mem_cons.mp hd
  · exact ha.ne'
  · exact (ha.trans (List.rel_of_pairwise_cons h.1 hd)).ne'

/-- Of two canonical memories that read alike, the second lists no word before it comes to the first's first one. -/
theorem Memory.head_le (h : Memory.wf (c :: m)) (h' : Memory.wf (c' :: m'))
    (hread : ∀ a, Memory.get (c :: m) a = Memory.get (c' :: m') a) : c'.1 ≤ c.1 := by
  obtain ⟨hspace, hne⟩ := h.2 c List.mem_cons_self
  by_contra hlt
  have haddr : (BitVec.ofNat 16 c.1).toNat = c.1 := Nat.mod_eq_of_lt hspace
  have hzero := Memory.get_below h' (a := BitVec.ofNat 16 c.1) (by omega)
  rw [← hread, Memory.get_cons_self h] at hzero
  exact hne hzero

/-- A canonical memory with a listed word does not read zero everywhere. -/
theorem Memory.not_get_eq_zero (h : Memory.wf (c :: m)) : ¬ ∀ a, Memory.get (c :: m) a = 0 := by
  intro hread
  have hfirst := hread (BitVec.ofNat 16 c.1)
  rw [Memory.get_cons_self h] at hfirst
  exact (h.2 c List.mem_cons_self).2 hfirst

/-- What reads alike with the same first word reads alike without it. -/
theorem Memory.get_tail_eq {c : Nat × Word} (h : Memory.wf (c :: m)) (h' : Memory.wf (c :: m'))
    (hread : ∀ a, Memory.get (c :: m) a = Memory.get (c :: m') a) (a : Word) : m.get a = m'.get a := by
  by_cases ha : c.1 = a.toNat
  · rw [Memory.get_of_not_listed fun d hd => ha ▸ (List.rel_of_pairwise_cons h.1 hd).ne',
      Memory.get_of_not_listed fun d hd => ha ▸ (List.rel_of_pairwise_cons h'.1 hd).ne']
  · simpa only [Memory.get, if_neg ha] using hread a

theorem Memory.eq_of_get_eq (h : m.wf) (h' : m'.wf) (hread : ∀ a, m.get a = m'.get a) : m = m' := by
  induction m generalizing m' with
  | nil =>
    cases m' with
    | nil => rfl
    | cons c' rest' => exact absurd (fun a => (hread a).symm) (Memory.not_get_eq_zero h')
  | cons c rest ih =>
    cases m' with
    | nil => exact absurd hread (Memory.not_get_eq_zero h)
    | cons c' rest' =>
      have haddr : c.1 = c'.1 :=
        Nat.le_antisymm (Memory.head_le h' h fun a => (hread a).symm) (Memory.head_le h h' hread)
      have hword : c.2 = c'.2 := by
        rw [← Memory.get_cons_self h, ← Memory.get_cons_self h', hread, haddr]
      obtain rfl : c = c' := Prod.ext haddr hword
      rw [ih (Memory.wf_of_cons h) (Memory.wf_of_cons h') (Memory.get_tail_eq h h' hread)]

end Sys2Proof.Machine

open Sys2Proof.Machine

/-- Settles O9, by comparing the first listed words. -/
theorem canonicalMemoriesThatReadAlikeAreEqual : Obligations.CanonicalMemoriesThatReadAlikeAreEqual :=
  fun _ _ h h' => Memory.eq_of_get_eq h h'

end

section
/-! PROOFS. MemRead and the keyboard (spec 20_memory.md R63, R66, R68; 60_exceptions.md R270). -/

namespace Sys2Proof.Machine

variable {s : State} {k : Console}

/-! ### ConsoleRead, by what the host answers (R22) -/

theorem consoleRead_of_nextEvent {e : ConsoleEvent} (h : NextEvent e s.console k) :
    consoleRead s = .ok e (setConsole k s) := by
  obtain ⟨rest, hinput, rfl⟩ | ⟨hinput, htail, rfl⟩ := h
  · simp only [consoleRead, hinput]
  · simp only [consoleRead, hinput, htail]
    rfl

theorem consoleRead_of_neverAnswers (h : NeverAnswers s.console) : consoleRead s = .stuck .blockedOnConsole := by
  obtain ⟨hinput, htail⟩ := h
  simp only [consoleRead, hinput, htail]

/-! ### The keyboard takes a character (R63, R66) -/

theorem kbsrAddr_ne_kbdrAddr : Config.kbsrAddr ≠ Config.kbdrAddr := by decide

theorem rawWord_keyboardTakes (a : Word) (c : Byte) (s : State) : rawWord a (keyboardTakes c s) =
    if a = Config.kbdrAddr then zext8 c
    else if a = Config.kbsrAddr then rawWord Config.kbsrAddr s ||| 0x8000 else rawWord a s := by
  rw [keyboardTakes, rawWord_memWrite, rawWord_memWrite]

@[simp] theorem rawWord_kbsr_keyboardTakes (c : Byte) (s : State) :
    rawWord Config.kbsrAddr (keyboardTakes c s) = rawWord Config.kbsrAddr s ||| 0x8000 := by
  rw [rawWord_keyboardTakes, if_neg kbsrAddr_ne_kbdrAddr, if_pos rfl]

@[simp] theorem rawWord_kbdr_keyboardTakes (c : Byte) (s : State) :
    rawWord Config.kbdrAddr (keyboardTakes c s) = zext8 c := by
  rw [rawWord_keyboardTakes, if_pos rfl]

theorem toNat_zext8 (c : Byte) : (zext8 c).toNat = c.toNat := by
  rw [zext8, BitVec.toNat_setWidth_of_le (by decide)]

/-! ### A read of KBSR_ADDR, by what the host answers -/

theorem memRead_of_byte {c : Byte} (site : Site) (h : NextEvent (.byte c) s.console k) :
    memRead site Config.kbsrAddr s =
      .ok (rawWord Config.kbsrAddr s ||| 0x8000) (keyboardTakes c (setConsole k s)) := by
  simp only [memRead, if_true, consoleRead_of_nextEvent h, Result.bind_ok, rawWord_kbsr_keyboardTakes,
    rawWord_setConsole]

theorem memRead_of_endOfInput (site : Site) (h : NextEvent .endOfInput s.console k) :
    memRead site Config.kbsrAddr s = .ok (rawWord Config.kbsrAddr s) (setConsole k s) := by
  simp only [memRead, if_true, consoleRead_of_nextEvent h, Result.bind_ok, rawWord_setConsole]

theorem memRead_of_error (site : Site) (h : NextEvent .error s.console k) :
    memRead site Config.kbsrAddr s = .abort (raiseIo site .readError (setConsole k s)) := by
  simp only [memRead, if_true, consoleRead_of_nextEvent h, Result.bind_ok]

theorem memRead_of_neverAnswers (site : Site) (h : NeverAnswers s.console) :
    memRead site Config.kbsrAddr s = .stuck .blockedOnConsole := by
  simp only [memRead, if_true, consoleRead_of_neverAnswers h, Result.bind_stuck]

end Sys2Proof.Machine

open Sys2Proof.Machine

/-- Settles O8: a read of KBSR_ADDR is one ConsoleRead and what the keyboard makes of its answer. -/
theorem memReadChecksTheKeyboard : Obligations.MemReadChecksTheKeyboard := by
  intro site a s
  refine ⟨fun ha => memRead_plain ha site s, ?_⟩
  rintro rfl
  refine ⟨fun c k h => ?byte, fun k h => ?endOfInput, fun k h => ?error, memRead_of_neverAnswers site⟩
  case byte =>
    refine ⟨_, memRead_of_byte site h, rawWord_kbsr_keyboardTakes c _, ?_, fun b hkbsr hkbdr => ?_, fun _ => rfl, rfl,
      rfl, rfl, rfl⟩
    · rw [rawWord_kbdr_keyboardTakes, toNat_zext8]
    · rw [rawWord_keyboardTakes, if_neg hkbdr, if_neg hkbsr, rawWord_setConsole]
  case endOfInput => exact ⟨_, memRead_of_endOfInput site h, sameData_setConsole k s, rfl, rfl, rfl⟩
  case error => exact ⟨_, memRead_of_error site h, rfl, (sameData_setConsole k s).after_raiseIo _ _, rfl, rfl⟩

end

section
/-! PROOFS. The step: fetch and execute (spec 30_encoding.md R100; 60_exceptions.md R261; 20_memory.md R74). -/

namespace Sys2Proof.Machine

variable {s t u : State} {w : Word}

theorem step_of_running (h : s.engine = .running) : step s = (fetch s).thenDo fun w s1 => exec (decode w) s1 := by
  rw [step, h]

theorem step_of_not_running (h : s.engine ≠ .running) : step s = .fault .engineStopped := by
  rw [step]
  split
  · next hrun => exact absurd hrun h
  · rfl
  · rfl

theorem step_of_fetch (hrun : s.engine = .running) (h : memRead (fetchSite s) s.pc s = .ok w u) :
    step s = exec (decode w) (setPc (s.pc + 1) u) := by
  rw [step_of_running hrun, fetch, h, Result.bind_ok, Result.thenDo_ok, (memRead_io h).1.pc]

theorem step_of_fetch_abort (hrun : s.engine = .running) (h : memRead (fetchSite s) s.pc s = .abort u) :
    step s = .next u := by
  rw [step_of_running hrun, fetch, h, Result.bind_abort, Result.thenDo_abort]

theorem step_of_fetch_stuck {f : Fault} (hrun : s.engine = .running) (h : memRead (fetchSite s) s.pc s = .stuck f) :
    step s = .fault f := by
  rw [step_of_running hrun, fetch, h, Result.bind_stuck, Result.thenDo_stuck]

/-- Away from KBSR_ADDR a step runs the instruction that stands at pc. -/
theorem step_plain (hrun : s.engine = .running) (hpc : s.pc ≠ Config.kbsrAddr) :
    step s = exec (decode (rawWord s.pc s)) (setPc (s.pc + 1) s) :=
  step_of_fetch hrun (memRead_plain hpc _ s)

/-- A store's next state holds, at the address stored to, the value SR had before. -/
theorem rawWord_of_store {sr baseR : Reg} {off9 : BitVec 9} {off6 : BitVec 6} {i : Instr} {a : Word}
    (hi : i = .st sr off9 ∨ i = .sti sr off9 ∨ i = .str sr baseR off6) (ha : StoresTo i s a) (h : exec i s = .next t) :
    rawWord a t = readReg sr s := by
  obtain rfl | rfl | rfl := hi
  · obtain rfl : a = pcRelative9 off9 s := ha
    rw [exec_st] at h
    cases h
    exact (wroteMem_memWrite _ _ s).1
  · obtain ⟨u, hread⟩ : ∃ u, memRead (instrSite s) (pcRelative9 off9 s) s = .ok a u := ha
    obtain ⟨t', ht', hwrote⟩ := exec_sti_of_pointer (sr := sr) hread
    rw [h] at ht'
    cases ht'
    exact hwrote.1
  · obtain rfl : a = baseOffset baseR off6 s := ha
    rw [exec_str] at h
    cases h
    exact (wroteMem_memWrite _ _ s).1

theorem withFetchWord_eq {w : Nat} (hw : w < 65536) (s : State) :
    s.withFetchWord 16 w = memWrite s.pc (BitVec.ofNat 16 w) s := by
  have hmod : w % 2 ^ 16 = w := Nat.mod_eq_of_lt hw
  rw [State.withFetchWord, hmod, placeAtPc]

theorem decodeTableWord_eq {w : Nat} (hw : w < 65536) : decodeTableWord 16 w = some (decode (BitVec.ofNat 16 w)) :=
  if_pos ⟨le_refl 16, hw⟩

end Sys2Proof.Machine

open Sys2Proof Sys2Proof.Machine

/-- Settles O15, by what the fetch answers. -/
theorem stepRunsTheDecodedInstruction : Obligations.StepRunsTheDecodedInstruction := fun _ =>
  ⟨fun hrun => ⟨fun _ _ => step_of_fetch hrun, fun _ => step_of_fetch_abort hrun, fun _ => step_of_fetch_stuck hrun,
    step_plain hrun⟩, step_of_not_running⟩

/-- Settles O16: the fetch is a read of KBSR_ADDR that takes the error. -/
theorem failingFetchAbortsBeforeTheInstruction : Obligations.FailingFetchAbortsBeforeTheInstruction := by
  intro s k hrun hpc herror
  have hread : memRead (fetchSite s) s.pc s = .abort (raiseIo (fetchSite s) .readError (setConsole k s)) := by
    rw [hpc]
    exact memRead_of_error _ herror
  refine ⟨_, step_of_fetch_abort hrun hread, ?_, (sameData_setConsole k s).after_raiseIo _ _, rfl, rfl⟩
  rw [AbortedIo, ← hpc]
  rfl

/-- Settles O17: the placed word is the one the next fetch reads. -/
theorem placedWordIsTheNextInstruction : Obligations.PlacedWordIsTheNextInstruction := by
  intro s w hrun hpc hw
  refine ⟨_, decodeTableWord_eq hw, ?_⟩
  rw [withFetchWord_eq hw, step_plain (s := memWrite s.pc _ s) hrun hpc, memWrite_pc, (wroteMem_memWrite _ _ s).1]

/-- Settles O18: the next fetch reads the stored word. -/
theorem storedWordIsFetchedByTheNextStep : Obligations.StoredWordIsFetchedByTheNextStep := by
  intro sr baseR off9 off6 i s t a hi ha hexec hrun hpc hkbsr
  subst hpc
  rw [step_plain hrun hkbsr, rawWord_of_store hi ha hexec]

end

section
/-! PROOFS. JSR and JSRR (spec 42_control.md R196, R197): the link, then the jump. -/

namespace Sys2Proof.Machine

theorem exec_jsr (off11 : BitVec 11) (s : State) :
    exec (.jsr off11) s = .next (setPc (pcRelative11 off11 s) (link s)) := rfl

theorem exec_jsrr (baseR : Reg) (s : State) : exec (.jsrr baseR) s = .next (setPc (readReg baseR (link s)) (link s)) :=
  rfl

theorem isWord_pcRelative11 (off11 : BitVec 11) (s : State) :
    IsWord (pcRelative11 off11 s) (s.pc.toNat + off11.toInt) := isWord_add_sext s.pc off11

theorem readReg_link_self (s : State) : readReg 7 (link s) = s.pc := readReg_writeReg_self s 7 s.pc

theorem readReg_link_ne {q : Reg} (h : q ≠ 7) (s : State) : readReg q (link s) = readReg q s :=
  readReg_writeReg_ne s h s.pc

/-- A jump after the link: R7 holds the return address, and nothing but R7 and pc changed. -/
theorem linked_setPc (target : Word) (s : State) :
    readReg 7 (setPc target (link s)) = s.pc ∧ SameRegsBut 7 s (setPc target (link s)) ∧
      (setPc target (link s)).cond = s.cond ∧ SameMem s (setPc target (link s)) ∧
      SamePorts s (setPc target (link s)) :=
  ⟨readReg_link_self s, fun _ hq => readReg_link_ne hq s, rfl, fun _ => rfl, rfl, rfl⟩

end Sys2Proof.Machine

open Sys2Proof.Machine

/-- Settles O34: the target is formed from pc, which the link leaves. -/
theorem jsrLinksAndJumpsRelative : Obligations.JsrLinksAndJumpsRelative := by
  intro off11 s
  obtain ⟨hlink, hregs, hcond, hmem, hports⟩ := linked_setPc (pcRelative11 off11 s) s
  exact ⟨fun _ => decode_eq_jsr, _, exec_jsr off11 s, hlink, hregs, isWord_pcRelative11 off11 s, hcond, hmem, hports⟩

/-- Settles O35: the base is read after the link, which only R7 shows. -/
theorem jsrrLinksBeforeItReadsTheBase : Obligations.JsrrLinksBeforeItReadsTheBase := by
  intro baseR s
  obtain ⟨hlink, hregs, hcond, hmem, hports⟩ := linked_setPc (readReg baseR (link s)) s
  refine ⟨fun _ => decode_eq_jsrr, _, exec_jsrr baseR s, hlink, hregs, fun hne => readReg_link_ne hne s, ?_, hcond,
    hmem, hports⟩
  rintro rfl
  exact readReg_link_self s

end

section
/-! PROOFS. The reserved opcodes under either policy (spec 44_reserved.md R242). -/

open Sys2Proof Sys2Proof.Machine

/-- Settles O47: under Abort the one effect is on the engine state. -/
theorem reservedPolicyAbortWouldRecordOpcodeAndAddress :
    Obligations.ReservedPolicyAbortWouldRecordOpcodeAndAddress := by
  intro opcode s
  have hsame : SameData s s := ⟨fun _ => rfl, rfl, fun _ => rfl⟩
  exact ⟨rfl, rfl, rfl, hsame.after_setEngine _, rfl, rfl⟩

end

section
/-! PROOFS. What no instruction does (spec 10_state.md R33, R35, R39, R44; 20_memory.md R64, R66; 43_trap.md R219;
60_exceptions.md R252): read off everything an instruction can do. -/

namespace Sys2Proof.Machine

variable {i : Instr} {s t u : State}

/-! ### What an instruction's own change leaves alone -/

theorem OwnEffect.readReg_of_ne {r : Reg} (h : OwnEffect i s u t) (hr : writtenReg i ≠ some r) :
    readReg r t = readReg r u := by
  cases h with
  | nothing => rfl
  | halts => rfl
  | memory => rfl
  | jumps => rfl
  | register q v hq =>
    have hne : r ≠ q := fun e => hr (e ▸ hq)
    exact readReg_writeReg_ne u hne v
  | registerAndFlag q v hq =>
    have hne : r ≠ q := fun e => hr (e ▸ hq)
    exact readReg_writeReg_ne u hne v
  | calls q v _ hq =>
    have hne : r ≠ q := fun e => hr (e ▸ hq)
    exact readReg_writeReg_ne u hne v

theorem OwnEffect.cond_of_not_setsFlags (h : OwnEffect i s u t) (hf : setsFlags i = false) : t.cond = u.cond := by
  cases h with
  | registerAndFlag _ _ _ hsets => exact absurd (hf.symm.trans hsets) Bool.false_ne_true
  | nothing | halts | register | memory | jumps | calls => rfl

/-- A flag-setting instruction's own change is a register write with its flag (R39). -/
theorem OwnEffect.flag_of_setsFlags (h : OwnEffect i s u t) (hf : setsFlags i = true) :
    ∃ r, writtenReg i = some r ∧ FlagFor (readReg r t) t.cond := by
  cases h with
  | registerAndFlag r v hr =>
    obtain ⟨hwritten, hflag, -⟩ := wroteReg_writeRegCC r v u
    exact ⟨r, hr, hwritten.symm ▸ hflag⟩
  | nothing hsets | halts hsets | register _ _ _ hsets | memory _ _ _ hsets | jumps _ _ hsets | calls _ _ _ _ _ hsets =>
    exact absurd (hsets.symm.trans hf) Bool.false_ne_true

theorem OwnEffect.pc_of_not_writesPc (h : OwnEffect i s u t) (hpc : writesPc i = false) : t.pc = u.pc := by
  cases h with
  | jumps _ hwrites => exact absurd (hpc.symm.trans hwrites) Bool.false_ne_true
  | calls _ _ _ _ hwrites => exact absurd (hpc.symm.trans hwrites) Bool.false_ne_true
  | nothing | halts | register | registerAndFlag | memory => rfl

theorem OwnEffect.rawWord_of_not_storesTo {a : Word} (h : OwnEffect i s u t) (ha : ¬ StoresTo i s a) :
    rawWord a t = rawWord a u := by
  cases h with
  | memory b v hb =>
    have hne : a ≠ b := fun e => ha (e ▸ hb)
    rw [rawWord_memWrite, if_neg hne]
  | nothing | halts | register | registerAndFlag | jumps | calls => rfl

theorem OwnEffect.console (h : OwnEffect i s u t) : t.console = u.console := by
  cases h <;> rfl

theorem IoOnly.readReg (h : IoOnly s t) (r : Reg) : readReg r t = readReg r s := by
  rw [Machine.readReg, Machine.readReg, h.regs]

theorem IoAbort.readReg {P : IoKind → Prop} {site : Site} (h : IoAbort P site s t) (r : Reg) :
    readReg r t = readReg r s := by
  rw [Machine.readReg, Machine.readReg, h.frame.1]

theorem IoAbort.aborted {P : IoKind → Prop} {site : Site} (h : IoAbort P site s t) : Aborted t := by
  obtain ⟨kind, -, he⟩ := h.engine
  exact ⟨_, _, he⟩

/-- What a next state of an instruction is: console and keyboard traffic and then its own change, or an abort. -/
theorem exec_next_cases (h : exec i s = .next t) :
    (∃ u, IoOnly s u ∧ OwnEffect i s u t) ∨ ∃ site P, IoAbort P site s t := by
  obtain hdone | ⟨site, P, habort, -⟩ := exec_next h
  · exact .inl hdone
  · exact .inr ⟨site, P, habort⟩

/-- TRAP x25 and HALT are the only words that are decoded to an instruction that halts (R44). -/
theorem bitsOf_of_decode_halts {w : Word} (h : decode w = .halt ∨ decode w = .trap 0x25) :
    bitsOf w 12 4 = 15 ∧ bitsOf w 0 8 = 0x25 := by
  have hfields := format_decode w
  have hboth : ∀ f ∈ [Field.mk 12 4 15, Field.mk 0 8 0x25], f.In w := by
    obtain h | h := h <;> rw [h] at hfields <;> exact hfields
  exact ⟨hboth _ List.mem_cons_self, hboth _ (List.mem_cons_of_mem _ List.mem_cons_self)⟩

end Sys2Proof.Machine

open Sys2Proof Sys2Proof.Machine

/-- Settles O48: console and keyboard traffic writes no register, and neither does an abort. -/
theorem onlyTheNamedRegisterIsWritten : Obligations.OnlyTheNamedRegisterIsWritten := by
  intro i s t r hexec hr
  obtain ⟨u, hio, hown⟩ | ⟨site, P, habort⟩ := exec_next_cases hexec
  · exact (hown.readReg_of_ne hr).trans (hio.readReg r)
  · exact habort.readReg r

/-- Settles O49: an instruction that ends RUNNING has made its own change, and no other sets the flag. -/
theorem flagsFollowTheFlagSettingWrites : Obligations.FlagsFollowTheFlagSettingWrites := by
  intro i s t hexec
  obtain ⟨u, hio, hown⟩ | ⟨site, P, habort⟩ := exec_next_cases hexec
  · exact ⟨fun hf => (hown.cond_of_not_setsFlags hf).trans hio.cond, fun hf _ _ => hown.flag_of_setsFlags hf⟩
  · obtain ⟨-, -, hcond, -⟩ := habort.frame
    obtain ⟨reason, ia, haborted⟩ := habort.aborted
    refine ⟨fun _ => hcond, fun _ _ hrun => ?_⟩
    rw [hrun] at haborted
    cases haborted

/-- Settles O50: console and keyboard traffic leaves pc, and so does an abort. -/
theorem onlyControlTransfersWritePc : Obligations.OnlyControlTransfersWritePc := by
  intro i s t hexec hpc
  obtain ⟨u, hio, hown⟩ | ⟨site, P, habort⟩ := exec_next_cases hexec
  · exact (hown.pc_of_not_writesPc hpc).trans hio.pc
  · exact habort.frame.2.1

/-- Settles O52: neither a fetch nor an abort halts, and of the instructions only HALT does. -/
theorem haltedIsEnteredOnlyByHalt : Obligations.HaltedIsEnteredOnlyByHalt := by
  intro s t hstep hhalted
  have hnot : ∀ {P site v}, ¬ IoAbort P site v t := fun habort => by
    obtain ⟨reason, ia, haborted⟩ := habort.aborted
    rw [hhalted] at haborted
    cases haborted
  obtain ⟨hrun, hfetch | ⟨w, u, hfetch, hexec⟩⟩ := step_next hstep
  · exact absurd (memRead_ioAbort hfetch).2.1 hnot
  · refine ⟨w, u, hfetch, bitsOf_of_decode_halts ?_⟩
    obtain ⟨v, hio, hown⟩ | ⟨site, P, habort⟩ := exec_next_cases hexec
    · obtain hengine | ⟨-, hhalts⟩ := hown.engine
      · have hrunning : v.engine = .running := hio.engine.trans ((memRead_io hfetch).1.engine.trans hrun)
        rw [hhalted, hrunning] at hengine
        cases hengine
      · exact hhalts
    · exact absurd habort hnot

/-- Settles O53: beside its store, an instruction changes memory only by keyboard traffic. -/
theorem onlyStoresAndTheKeyboardChangeMemory : Obligations.OnlyStoresAndTheKeyboardChangeMemory := by
  intro i s t a hexec hkbsr hkbdr ha
  obtain ⟨u, hio, hown⟩ | ⟨site, P, habort⟩ := exec_next_cases hexec
  · exact (hown.rawWord_of_not_storesTo ha).trans (hio.mem a hkbsr hkbdr)
  · obtain ⟨-, -, -, -, hmem, -⟩ := habort.frame
    exact hmem a hkbsr hkbdr

/-- Settles O55: an instruction's own change leaves no ABORTED engine, so an abort came before it. -/
theorem abortedInstructionWritesNoRegister : Obligations.AbortedInstructionWritesNoRegister := by
  intro i s t hrun hexec haborted
  obtain ⟨u, hio, hown⟩ | ⟨site, P, habort⟩ := exec_next_cases hexec
  · exact absurd haborted (hown.not_aborted (hio.engine.trans hrun))
  · obtain ⟨-, hpc, hcond, -⟩ := habort.frame
    exact ⟨habort.readReg, hcond, hpc⟩

/-- Settles O57: the three outcomes of exec_outcome. -/
theorem everyInstructionCompletesUnlessBlockedOrEndless :
    Obligations.EveryInstructionCompletesUnlessBlockedOrEndless := by
  intro i s
  have houtcome := exec_outcome i s
  cases hexec : exec i s with
  | next t => exact .inl ⟨t, rfl⟩
  | fault f =>
    rw [hexec] at houtcome
    obtain ⟨rfl, htail⟩ | ⟨rfl, hi⟩ := houtcome
    · exact .inr (.inl ⟨rfl, htail⟩)
    · exact .inr (.inr ⟨rfl, hi⟩)
  | refused r =>
    rw [hexec] at houtcome
    exact houtcome.elim

end

section
/-! PROOFS. Output (spec 43_trap.md R219): only the services write to the console. -/

namespace Sys2Proof.Machine

variable {s t u : State}

/-- From s to t nothing was sent and no write was used up. -/
def Silent (s t : State) : Prop :=
  t.console.output = s.console.output ∧ t.console.failingWrite = s.console.failingWrite

theorem Silent.trans (h : Silent s t) (g : Silent t u) : Silent s u := ⟨g.1.trans h.1, g.2.trans h.2⟩

/-- Every next state an outcome answers is silent from s. -/
def SilentOutcome (s : State) (o : Outcome) : Prop := ∀ t, o = .next t → Silent s t

theorem SilentOutcome.next (h : Silent s t) : SilentOutcome s (.next t) := by
  rintro _ ⟨⟩
  exact h

/-- A MemRead sends nothing, whether it goes on or aborts. -/
theorem SilentOutcome.ofRead {site : Site} {a : Word} {k : Word → State → Outcome}
    (hk : ∀ v u, SilentOutcome u (k v u)) : SilentOutcome s ((memRead site a s).thenDo k) := by
  intro t ht
  obtain habort | ⟨v, u, hread, ht⟩ := Result.thenDo_eq_next.mp ht
  · obtain ⟨-, -, houtput, hfailing, -⟩ := memRead_ioAbort habort
    exact ⟨houtput, hfailing⟩
  · exact Silent.trans (memRead_io hread).2 (hk v u t ht)

theorem serviceGetc_silent (s : State) : SilentOutcome s (serviceGetc s) := by
  intro t ht
  obtain habort | ⟨e, u, hread, ht⟩ := Result.thenDo_eq_next.mp ht
  · exact absurd habort consoleRead_ne_abort
  · obtain ⟨-, houtput, hfailing, -⟩ := consoleRead_io hread
    cases e <;> cases ht <;> exact ⟨houtput, hfailing⟩

/-- An instruction outside the services that send, and outside TRAP, is silent. -/
theorem exec_silent {i : Instr} (hi : i ∉ [.out, .puts, .inChar, .putsp, .halt]) (htrap : ∀ v, i ≠ .trap v) :
    SilentOutcome s (exec i s) := by
  cases i with
  | out | puts | inChar | putsp | halt => exact absurd (by decide) hi
  | trap v => exact absurd rfl (htrap v)
  | ld | ldr => exact .ofRead fun v u => .next ⟨rfl, rfl⟩
  | sti => exact .ofRead fun v u => .next ⟨rfl, rfl⟩
  | ldi => exact .ofRead fun p u => .ofRead fun v u' => .next ⟨rfl, rfl⟩
  | getc => exact serviceGetc_silent s
  | br n z p off9 =>
    refine .next ?_
    split <;> exact ⟨rfl, rfl⟩
  | _ => exact .next ⟨rfl, rfl⟩

end Sys2Proof.Machine

open Sys2Proof Sys2Proof.Machine

/-- Settles O54: what traffic sends is appended, and outside the services there is none that sends. -/
theorem outputOnlyGrowsAndOnlyInServices : Obligations.OutputOnlyGrowsAndOnlyInServices := by
  intro i s t hexec
  refine ⟨?_, fun hi htrap => exec_silent hi htrap t hexec⟩
  obtain ⟨u, hio, hown⟩ | ⟨site, P, habort⟩ := exec_next_cases hexec
  · rw [hown.console]
    exact hio.output
  · obtain ⟨-, -, -, -, -, houtput⟩ := habort.frame
    exact houtput

end

section
/-! PROOFS. Writing a byte string (spec 43_trap.md R214, R217): the closed form is the loop of single writes. -/

namespace Sys2Proof.Machine

variable {s t : State}

theorem consoleWriteAll_nil (site : Site) (s : State) : consoleWriteAll site [] s = .ok () s := by
  cases hf : s.console.failingWrite with
  | none =>
    simp only [consoleWriteAll, hf, List.append_nil]
    rw [← hf]
    rfl
  | some k =>
    simp only [consoleWriteAll, hf, List.append_nil, List.length_nil, Nat.zero_le, if_true, Nat.sub_zero]
    rw [← hf]
    rfl

/-- Writing a string is writing its first part and then the rest: the host counts the writes of both. -/
theorem consoleWriteAll_append (site : Site) (bs cs : List Byte) (s : State) :
    consoleWriteAll site (bs ++ cs) s = (consoleWriteAll site bs s).bind fun _ u => consoleWriteAll site cs u := by
  cases hf : s.console.failingWrite with
  | none =>
    simp only [consoleWriteAll, hf, Result.bind_ok, setConsole_console, List.append_assoc]
    rfl
  | some k =>
    by_cases hbs : bs.length ≤ k
    · by_cases hcs : cs.length ≤ k - bs.length
      · have hall : bs.length + cs.length ≤ k := by omega
        simp only [consoleWriteAll, hf, if_pos hbs, if_pos hcs, Result.bind_ok, setConsole_console, List.append_assoc,
          List.length_append, if_pos hall, Nat.sub_sub]
        rfl
      · have hall : ¬ bs.length + cs.length ≤ k := by omega
        simp only [consoleWriteAll, hf, if_pos hbs, if_neg hcs, Result.bind_ok, setConsole_console, List.append_assoc,
          List.length_append, if_neg hall, List.take_append, List.take_of_length_le hbs]
        rfl
    · have hall : ¬ bs.length + cs.length ≤ k := by omega
      have htake : (bs ++ cs).take k = bs.take k := List.take_append_of_le_length (by omega)
      simp only [consoleWriteAll, hf, if_neg hbs, List.length_append, if_neg hall, htake, Result.bind_abort]

theorem consoleWriteAll_concat (site : Site) (bs : List Byte) (b : Byte) (s : State) :
    consoleWriteAll site (bs ++ [b]) s = (consoleWriteAll site bs s).bind fun _ u => consoleWrite site b u := by
  simp only [consoleWriteAll_append, consoleWrite_eq_consoleWriteAll]

end Sys2Proof.Machine

open Sys2Proof Sys2Proof.Machine

/-- Settles O56, by induction on the string from its end. -/
theorem writingAStringIsWritingItsBytesInOrder : Obligations.WritingAStringIsWritingItsBytesInOrder := by
  intro site bs s
  induction bs using List.reverseRecOn with
  | nil => exact consoleWriteAll_nil site s
  | append_singleton bs b ih => rw [consoleWriteAll_concat, List.foldl_concat, ih]

end

section
/-! PROOFS. GETC and IN (spec 43_trap.md R211, R214, decisions D12 to D16): what each does with the host's answer. -/

namespace Sys2Proof.Machine

variable {s : State} {k : Console}

theorem exec_getc_of_byte {c : Byte} (h : NextEvent (.byte c) s.console k) :
    exec .getc s = .next (writeReg 0 (zext8 c) (setConsole k s)) := by
  simp only [exec, execGetc, serviceGetc, consoleRead_of_nextEvent h, Result.thenDo_ok]

theorem exec_getc_of_endOfInput (h : NextEvent .endOfInput s.console k) :
    exec .getc s = .next (raiseIo (serviceSite 0x20 s) .endOfInput (setConsole k s)) := by
  simp only [exec, execGetc, serviceGetc, consoleRead_of_nextEvent h, Result.thenDo_ok]
  rfl

theorem exec_getc_of_error (h : NextEvent .error s.console k) :
    exec .getc s = .next (raiseIo (serviceSite 0x20 s) .readError (setConsole k s)) := by
  simp only [exec, execGetc, serviceGetc, consoleRead_of_nextEvent h, Result.thenDo_ok]
  rfl

theorem exec_getc_of_neverAnswers (h : NeverAnswers s.console) : exec .getc s = .fault .blockedOnConsole := by
  simp only [exec, execGetc, serviceGetc, consoleRead_of_neverAnswers h, Result.thenDo_stuck]

end Sys2Proof.Machine

open Sys2Proof Sys2Proof.Machine

/-- Settles O37, by the host's answer. -/
theorem getcPutsOneCharacterInR0 : Obligations.GetcPutsOneCharacterInR0 := by
  intro s
  refine ⟨fun c k h => ?byte, fun k h => ?endOfInput, fun k h => ?error, exec_getc_of_neverAnswers⟩
  case byte =>
    refine ⟨_, exec_getc_of_byte h, ?_, fun q hq => readReg_writeReg_ne (setConsole k s) hq _, rfl, rfl, fun _ => rfl,
      rfl, rfl⟩
    rw [readReg_writeReg_self, toNat_zext8]
  case endOfInput => exact ⟨_, exec_getc_of_endOfInput h, rfl, (sameData_setConsole k s).after_raiseIo _ _, rfl, rfl⟩
  case error => exact ⟨_, exec_getc_of_error h, rfl, (sameData_setConsole k s).after_raiseIo _ _, rfl, rfl⟩

end

section
/-! PROOFS. The console port through several operations (spec 00_scope.md R22). -/

namespace Sys2Proof.Machine

variable {c c' c'' k : Console} {bs : List Byte} {e : ConsoleEvent}

theorem Sent.trans {cs : List Byte} (h : Sent bs c c') (g : Sent cs c' c'') : Sent (bs ++ cs) c c'' := by
  obtain ⟨hinput, htail, houtput, hfailing⟩ := h
  obtain ⟨ginput, gtail, goutput, gfailing⟩ := g
  refine ⟨ginput.trans hinput, gtail.trans htail, by rw [goutput, houtput, List.append_assoc], ?_⟩
  rw [gfailing, hfailing, Option.map_map, List.length_append]
  exact congrArg (Option.map · c.failingWrite) (funext fun n => Nat.sub_sub n bs.length cs.length)

theorem AcceptsWrites.after {n : Nat} (hsent : Sent bs c c') (h : AcceptsWrites (bs.length + n) c) :
    AcceptsWrites n c' := by
  intro m hm
  obtain ⟨-, -, -, hfailing⟩ := hsent
  obtain ⟨j, hj, rfl⟩ := Option.map_eq_some_iff.mp (hfailing.symm.trans hm)
  have hroom := h j hj
  omega

theorem AcceptsWrites.mono {m n : Nat} (hmn : m ≤ n) (h : AcceptsWrites n c) : AcceptsWrites m c :=
  fun j hj => hmn.trans (h j hj)

/-- Taking an event leaves the output and the writes. -/
theorem NextEvent.writes (h : NextEvent e c k) : k.output = c.output ∧ k.failingWrite = c.failingWrite := by
  obtain ⟨rest, -, rfl⟩ | ⟨-, -, rfl⟩ := h <;> exact ⟨rfl, rfl⟩

/-- Sending takes no event: the host's next answer comes after it as before it. -/
theorem NextEvent.after_sent (hsent : Sent bs c c') (h : NextEvent e c k) : ∃ k', NextEvent e c' k' ∧ Sent bs k k' := by
  obtain ⟨hinput, htail, houtput, hfailing⟩ := hsent
  obtain ⟨rest, hc, rfl⟩ | ⟨hc, he, rfl⟩ := h
  · exact ⟨{ c' with input := rest }, .inl ⟨rest, hinput.trans hc, rfl⟩, rfl, htail, houtput, hfailing⟩
  · exact ⟨c', .inr ⟨hinput.trans hc, htail.trans he, rfl⟩, hinput, htail, houtput, hfailing⟩

theorem NeverAnswers.after_sent (hsent : Sent bs c c') (h : NeverAnswers c) : NeverAnswers c' := by
  obtain ⟨hinput, htail, -, -⟩ := hsent
  obtain ⟨hc, he⟩ := h
  exact ⟨hinput.trans hc, htail.trans he⟩

end Sys2Proof.Machine
end

section
/-! PROOFS. IN (spec 43_trap.md R214, decisions D12 to D16): the prompt, the host's answer, the echo. -/

namespace Sys2Proof.Machine

variable {s : State} {c k : Console}

theorem exec_in (s : State) : exec .inChar s = serviceIn s := rfl

theorem exec_in_of_prompt_refused {n : Nat} (hf : s.console.failingWrite = some n) (hn : n < Config.inPrompt.length) :
    ∃ c, exec .inChar s = .next (raiseIo (serviceSite 0x23 s) .writeError (setConsole c s)) ∧
      c.input = s.console.input ∧ c.output = s.console.output ++ Config.inPrompt.take n := by
  obtain ⟨c, hwrite, hinput, houtput⟩ := consoleWriteAll_of_refuses (serviceSite 0x23 s) hf hn
  exact ⟨c, by rw [exec_in, serviceIn, hwrite, Result.thenDo_abort], hinput, houtput⟩

/-- Where the host accepts the prompt, its answer after it is the one before it. -/
theorem consoleRead_after_prompt {e : ConsoleEvent} (h : NextEvent e s.console k)
    (hroom : AcceptsWrites Config.inPrompt.length s.console) : ∃ c k', Sent Config.inPrompt k k' ∧
      consoleWriteAll (serviceSite 0x23 s) Config.inPrompt s = .ok () (setConsole c s) ∧
      consoleRead (setConsole c s) = .ok e (setConsole k' s) := by
  obtain ⟨c, hwrite, hsent⟩ := consoleWriteAll_of_accepts (serviceSite 0x23 s) hroom
  obtain ⟨k', hnext, hk⟩ := h.after_sent hsent
  exact ⟨c, k', hk, hwrite, consoleRead_of_nextEvent (s := setConsole c s) hnext⟩

/-- The prompt was sent and a character taken: what is left is the echo and the write of R0. -/
theorem exec_in_of_byte {ch : Byte} (h : NextEvent (.byte ch) s.console k)
    (hroom : AcceptsWrites Config.inPrompt.length s.console) : ∃ k', Sent Config.inPrompt k k' ∧
      exec .inChar s = (consoleWriteAll (serviceSite 0x23 s) [ch] (setConsole k' s)).thenDo fun _ u =>
        .next (writeRegCC 0 (zext8 ch) u) := by
  obtain ⟨c, k', hk, hwrite, hread⟩ := consoleRead_after_prompt h hroom
  refine ⟨k', hk, ?_⟩
  rw [exec_in, serviceIn, hwrite, Result.thenDo_ok, hread, Result.thenDo_ok, ← consoleWrite_eq_consoleWriteAll]
  rfl

theorem exec_in_of_endOfInput (h : NextEvent .endOfInput s.console k)
    (hroom : AcceptsWrites Config.inPrompt.length s.console) : ∃ k', Sent Config.inPrompt k k' ∧
      exec .inChar s = .next (raiseIo (serviceSite 0x23 s) .endOfInput (setConsole k' s)) := by
  obtain ⟨c, k', hk, hwrite, hread⟩ := consoleRead_after_prompt h hroom
  refine ⟨k', hk, ?_⟩
  rw [exec_in, serviceIn, hwrite, Result.thenDo_ok, hread, Result.thenDo_ok]
  rfl

theorem exec_in_of_error (h : NextEvent .error s.console k)
    (hroom : AcceptsWrites Config.inPrompt.length s.console) : ∃ k', Sent Config.inPrompt k k' ∧
      exec .inChar s = .next (raiseIo (serviceSite 0x23 s) .readError (setConsole k' s)) := by
  obtain ⟨c, k', hk, hwrite, hread⟩ := consoleRead_after_prompt h hroom
  refine ⟨k', hk, ?_⟩
  rw [exec_in, serviceIn, hwrite, Result.thenDo_ok, hread, Result.thenDo_ok]
  rfl

theorem exec_in_of_neverAnswers (h : NeverAnswers s.console)
    (hroom : AcceptsWrites Config.inPrompt.length s.console) : exec .inChar s = .fault .blockedOnConsole := by
  obtain ⟨c, hwrite, hsent⟩ := consoleWriteAll_of_accepts (serviceSite 0x23 s) hroom
  rw [exec_in, serviceIn, hwrite, Result.thenDo_ok,
    consoleRead_of_neverAnswers (s := setConsole c s) (h.after_sent hsent), Result.thenDo_stuck]

end Sys2Proof.Machine

open Sys2Proof Sys2Proof.Machine

/-- Settles O44, by where the host refuses a write and what it answers after the prompt. -/
theorem inPromptsReadsEchoesAndSetsR0 : Obligations.InPromptsReadsEchoesAndSetsR0 := by
  intro s
  refine ⟨fun ch k hbyte haccepts => ?completes, fun n ch k hrefuses hcase => ?refused,
    fun k hend haccepts => ?endOfInput, fun k herror haccepts => ?error, exec_in_of_neverAnswers⟩
  case completes =>
    obtain ⟨k', hk, hexec⟩ := exec_in_of_byte hbyte (haccepts.mono (Nat.le_succ _))
    have hroom : AcceptsWrites [ch].length k' := by
      refine AcceptsWrites.after hk fun n hn => haccepts n ?_
      rwa [← hbyte.writes.2]
    obtain ⟨u, hecho, hsent⟩ := consoleWriteAll_of_accepts (s := setConsole k' s) (serviceSite 0x23 s) hroom
    obtain ⟨hr0, hflag, hregs, hpc, hmem, hengine, hconsole⟩ :=
      wroteReg_writeRegCC 0 (zext8 ch) (setConsole u (setConsole k' s))
    exact ⟨_, _, by rw [hexec, hecho, Result.thenDo_ok], toNat_zext8 ch, hr0, hflag, hregs, hpc, hmem, hengine,
      hk.trans hsent⟩
  case refused =>
    obtain hn | ⟨rfl, hbyte⟩ := hcase
    · obtain ⟨c, hexec, hinput, houtput⟩ := exec_in_of_prompt_refused hrefuses hn
      exact ⟨_, hexec, rfl, (sameData_setConsole c s).after_raiseIo _ _, rfl, houtput, fun _ => hinput,
        fun heq => absurd heq hn.ne⟩
    · have hroom : AcceptsWrites Config.inPrompt.length s.console := fun m hm =>
        (Option.some.inj (hrefuses.symm.trans hm)).le
      obtain ⟨k', ⟨hkinput, -, hkoutput, hkfailing⟩, hexec⟩ := exec_in_of_byte hbyte hroom
      have hlast : k'.failingWrite = some 0 := by
        rw [hkfailing, hbyte.writes.2, hrefuses, Option.map_some, Nat.sub_self]
      obtain ⟨u, hecho, hinput, houtput⟩ :=
        consoleWriteAll_of_refuses (s := setConsole k' s) (bs := [ch]) (serviceSite 0x23 s) hlast Nat.zero_lt_one
      rw [hexec, hecho, Result.thenDo_abort]
      refine ⟨_, rfl, rfl, (sameData_setConsole u s).after_raiseIo _ _, rfl, ?_,
        fun hlt => absurd hlt (Nat.lt_irrefl _), fun _ => hinput.trans hkinput⟩
      rw [List.take_length, ← hbyte.writes.1, ← hkoutput]
      exact houtput.trans (List.append_nil _)
  case endOfInput =>
    obtain ⟨k', hk, hexec⟩ := exec_in_of_endOfInput hend haccepts
    exact ⟨_, hexec, rfl, (sameData_setConsole k' s).after_raiseIo _ _, rfl, hk⟩
  case error =>
    obtain ⟨k', hk, hexec⟩ := exec_in_of_error herror haccepts
    exact ⟨_, hexec, rfl, (sameData_setConsole k' s).after_raiseIo _ _, rfl, hk⟩

end

section
/-! PROOFS. No instruction but BR reads cond (spec 10_state.md R40): every operation run with another flag does the same
and hands that flag on. -/

namespace Sys2Proof.Machine

/-- The state with another flag. -/
def withCond (c : Cond) (s : State) : State := { s with cond := c }

/-- The same answer with another flag in the state it goes on in. -/
def Result.withCond {α : Type} (c : Cond) : Result α → Result α
  | .ok v s => .ok v (Machine.withCond c s)
  | .abort s => .abort (Machine.withCond c s)
  | .stuck f => .stuck f

variable {c : Cond} {s : State} {site : Site}

/-! ### The operations -/

theorem Result.bind_withCond {α β : Type} {r r' : Result α} {k : α → State → Result β} (hr : r' = r.withCond c)
    (hk : ∀ v u, k v (Machine.withCond c u) = (k v u).withCond c) : r'.bind k = (r.bind k).withCond c := by
  subst hr
  cases r with
  | ok v u => exact hk v u
  | abort u => rfl
  | stuck f => rfl

theorem consoleRead_withCond (c : Cond) (s : State) : consoleRead (withCond c s) = (consoleRead s).withCond c := by
  unfold consoleRead
  simp only [withCond]
  split
  · rfl
  · split <;> rfl

theorem consoleWriteAll_withCond (site : Site) (bs : List Byte) (c : Cond) (s : State) :
    consoleWriteAll site bs (withCond c s) = (consoleWriteAll site bs s).withCond c := by
  unfold consoleWriteAll
  simp only [withCond]
  split
  · rfl
  · split <;> rfl

theorem consoleWrite_withCond (site : Site) (b : Byte) (c : Cond) (s : State) :
    consoleWrite site b (withCond c s) = (consoleWrite site b s).withCond c := by
  simp only [consoleWrite_eq_consoleWriteAll, consoleWriteAll_withCond]

theorem memRead_withCond (site : Site) (a : Word) (c : Cond) (s : State) :
    memRead site a (withCond c s) = (memRead site a s).withCond c := by
  unfold memRead
  split
  · refine Result.bind_withCond (consoleRead_withCond c s) fun e u => ?_
    cases e <;> rfl
  · rfl

theorem putsWord_withCond (site : Site) (w : Word) (c : Cond) (s : State) :
    putsWord site w (withCond c s) = (putsWord site w s).withCond c := by
  unfold putsWord
  split
  · rfl
  · exact Result.bind_withCond (consoleWrite_withCond site _ c s) fun _ _ => rfl

theorem putspWord_withCond (site : Site) (w : Word) (c : Cond) (s : State) :
    putspWord site w (withCond c s) = (putspWord site w s).withCond c := by
  unfold putspWord
  split
  · rfl
  · refine Result.bind_withCond (consoleWrite_withCond site _ c s) fun _ u => ?_
    split
    · rfl
    · exact Result.bind_withCond (consoleWrite_withCond site _ c u) fun _ _ => rfl

theorem walk_withCond {word : Word → State → Result Bool}
    (hword : ∀ w s, word w (withCond c s) = (word w s).withCond c) (bound : Nat) (a : Word) (s : State) :
    walk site word bound a (withCond c s) = (walk site word bound a s).withCond c := by
  induction bound generalizing a s with
  | zero => rfl
  | succ bound ih =>
    refine Result.bind_withCond (memRead_withCond site a c s) fun w u => ?_
    refine Result.bind_withCond (hword w u) fun ended v => ?_
    cases ended
    · exact ih (a + 1) v
    · rfl

/-! ### The instructions -/

/-- What a run with the flag c answers, o' in the place of o: the same but for cond, which is c where no flag is set. -/
def AlikeButCond (c : Cond) (sets : Bool) : Outcome → Outcome → Prop
  | .next t, o' => ∃ c', o' = .next (withCond c' t) ∧ (sets = false → c' = c)
  | .fault f, o' => o' = .fault f
  | .refused r, o' => o' = .refused r

variable {sets : Bool}

theorem AlikeButCond.handsOn (t : State) : AlikeButCond c sets (.next t) (.next (withCond c t)) :=
  ⟨c, rfl, fun _ => rfl⟩

theorem AlikeButCond.setsFlag (r : Reg) (v : Word) (t : State) :
    AlikeButCond c true (.next (writeRegCC r v t)) (.next (writeRegCC r v (withCond c t))) :=
  ⟨condOf v, rfl, fun h => absurd h.symm Bool.false_ne_true⟩

theorem AlikeButCond.thenDo {α : Type} {r r' : Result α} {k : α → State → Outcome} (hr : r' = r.withCond c)
    (hk : ∀ v u, AlikeButCond c sets (k v u) (k v (withCond c u))) :
    AlikeButCond c sets (r.thenDo k) (r'.thenDo k) := by
  subst hr
  cases r with
  | ok v u => exact hk v u
  | abort u => exact .handsOn u
  | stuck f => rfl

theorem readInto_alike (dr : Reg) (site : Site) (a : Word) (c : Cond) (s : State) :
    AlikeButCond c true (readInto dr site a s) (readInto dr site a (withCond c s)) :=
  .thenDo (memRead_withCond site a c s) fun v u => .setsFlag dr v u

theorem serviceGetc_alike (c : Cond) (s : State) :
    AlikeButCond c sets (serviceGetc s) (serviceGetc (withCond c s)) := by
  refine .thenDo (consoleRead_withCond c s) fun e u => ?_
  cases e <;> exact .handsOn _

theorem serviceOut_alike (c : Cond) (s : State) : AlikeButCond c sets (serviceOut s) (serviceOut (withCond c s)) :=
  .thenDo (consoleWrite_withCond _ _ c s) fun _ u => .handsOn u

theorem servicePuts_alike (c : Cond) (s : State) : AlikeButCond c sets (servicePuts s) (servicePuts (withCond c s)) :=
  .thenDo (walk_withCond (fun w u => putsWord_withCond _ w c u) _ _ s) fun _ u => .handsOn u

theorem servicePutsp_alike (c : Cond) (s : State) :
    AlikeButCond c sets (servicePutsp s) (servicePutsp (withCond c s)) :=
  .thenDo (walk_withCond (fun w u => putspWord_withCond _ w c u) _ _ s) fun _ u => .handsOn u

theorem serviceHalt_alike (c : Cond) (s : State) : AlikeButCond c sets (serviceHalt s) (serviceHalt (withCond c s)) :=
  .thenDo (consoleWriteAll_withCond _ _ c s) fun _ u => .handsOn (setEngine .halted u)

theorem serviceIn_alike (c : Cond) (s : State) : AlikeButCond c true (serviceIn s) (serviceIn (withCond c s)) := by
  refine .thenDo (consoleWriteAll_withCond _ _ c s) fun _ u => ?_
  refine .thenDo (consoleRead_withCond c u) fun e v => ?_
  cases e with
  | byte ch => exact .thenDo (consoleWrite_withCond _ ch c v) fun _ t => .setsFlag 0 _ t
  | endOfInput => exact .handsOn _
  | error => exact .handsOn _

/-- Every instruction but BR does the same with another flag. -/
theorem exec_alike {i : Instr} (hbr : ∀ n z p o, i ≠ .br n z p o) (c : Cond) (s : State) :
    AlikeButCond c (setsFlags i) (exec i s) (exec i (withCond c s)) := by
  cases i with
  | br n z p o => exact absurd rfl (hbr n z p o)
  | addReg | addImm | andReg | andImm | not | lea => exact .setsFlag _ _ s
  | ld | ldr => exact readInto_alike _ _ _ c s
  | ldi dr off9 => exact .thenDo (memRead_withCond _ _ c s) fun p u => readInto_alike dr _ p c u
  | sti sr off9 => exact .thenDo (memRead_withCond _ _ c s) fun p u => .handsOn (memWrite p (readReg sr u) u)
  | st | str | jmp | jsr | jsrr | ret | rti | res => exact .handsOn _
  | getc => exact serviceGetc_alike c s
  | out => exact serviceOut_alike c s
  | puts => exact servicePuts_alike c s
  | inChar => exact serviceIn_alike c s
  | putsp => exact servicePutsp_alike c s
  | halt => exact serviceHalt_alike c s
  | trap v =>
    rw [exec_trap, exec_trap, execTrap, execTrap]
    split_ifs with h1 h2 h3 h4 h5 h6
    · exact serviceGetc_alike c s
    · exact serviceOut_alike c s
    · exact servicePuts_alike c s
    · subst h4; exact serviceIn_alike c s
    · exact servicePutsp_alike c s
    · exact serviceHalt_alike c s
    · exact .handsOn s

end Sys2Proof.Machine

open Sys2Proof Sys2Proof.Machine

/-- Settles O51, by running every operation with the other flag. -/
theorem onlyBrReadsCond : Obligations.OnlyBrReadsCond := by
  intro i s c hbr
  have halike := exec_alike hbr c s
  refine ⟨fun t hexec => ?_, fun f hexec => ?_⟩
  · rw [hexec] at halike
    exact halike
  · rw [hexec] at halike
    exact halike

end

section
/-! PROOFS. The loop of PUTS and PUTSP (spec 43_trap.md R213, R215): its words one after another, and what each kind of
word sends. -/

namespace Sys2Proof.Machine

variable {s t u : State} {site : Site} {a : Word} {word : Word → State → Result Bool} {m n : Nat}

/-! ### Writing a string that is accepted whole -/

/-- The bytes and the port before them fix the port after them. -/
theorem Sent.unique {bs : List Byte} {c c1 c2 : Console} (h1 : Sent bs c c1) (h2 : Sent bs c c2) : c1 = c2 := by
  obtain ⟨input1, tail1, output1, failing1⟩ := h1
  obtain ⟨input2, tail2, output2, failing2⟩ := h2
  calc c1 = ⟨c1.input, c1.tail, c1.failingWrite, c1.output⟩ := rfl
    _ = ⟨c2.input, c2.tail, c2.failingWrite, c2.output⟩ := by
      rw [input1, tail1, output1, failing1, input2, tail2, output2, failing2]

theorem consoleWriteAll_eq_ok_iff {bs : List Byte} {v : Unit} : consoleWriteAll site bs s = .ok v t ↔
    AcceptsWrites bs.length s.console ∧ ∃ c, Sent bs s.console c ∧ t = setConsole c s := by
  constructor
  · intro h
    have haccepts : AcceptsWrites bs.length s.console := by
      intro k hk
      by_contra hlt
      obtain ⟨c, hwrite, -⟩ := consoleWriteAll_of_refuses site hk (not_le.mp hlt)
      rw [h] at hwrite
      cases hwrite
    obtain ⟨c, hwrite, hsent⟩ := consoleWriteAll_of_accepts site haccepts
    rw [h] at hwrite
    cases hwrite
    exact ⟨haccepts, c, hsent, rfl⟩
  · rintro ⟨haccepts, c, hsent, rfl⟩
    obtain ⟨c', hwrite, hsent'⟩ := consoleWriteAll_of_accepts site haccepts
    exact hsent.unique hsent' ▸ hwrite

/-! ### A run of words that each go on -/

/-- From s at address a, the loop reads n words of which none ends the string, and is in t. -/
inductive Passes (site : Site) (word : Word → State → Result Bool) : Nat → Word → State → State → Prop where
  | zero (a : Word) (s : State) : Passes site word 0 a s s
  | succ {n : Nat} {a w : Word} {s s1 s2 t : State} : memRead site a s = .ok w s1 → word w s1 = .ok false s2 →
      Passes site word n (a + 1) s2 t → Passes site word (n + 1) a s t

theorem passes_succ_iff : Passes site word (n + 1) a s t ↔
    ∃ w s1 s2, memRead site a s = .ok w s1 ∧ word w s1 = .ok false s2 ∧ Passes site word n (a + 1) s2 t := by
  constructor
  · rintro (_ | ⟨hread, hword, hrest⟩)
    exact ⟨_, _, _, hread, hword, hrest⟩
  · rintro ⟨w, s1, s2, hread, hword, hrest⟩
    exact .succ hread hword hrest

/-- A run of m + n words is a run of m words and then one of n. -/
theorem passes_add_iff : Passes site word (m + n) a s t ↔
    ∃ u, Passes site word m a s u ∧ Passes site word n (a + BitVec.ofNat 16 m) u t := by
  induction m generalizing a s with
  | zero =>
    have hzero : a + BitVec.ofNat 16 0 = a := BitVec.add_zero a
    rw [Nat.zero_add, hzero]
    constructor
    · exact fun h => ⟨s, .zero a s, h⟩
    · rintro ⟨_, ⟨⟩, h⟩
      exact h
  | succ m ih =>
    rw [Nat.add_right_comm, passes_succ_iff]
    simp only [ih, passes_succ_iff, add_one_add_ofNat]
    constructor
    · rintro ⟨w, s1, s2, hread, hword, u, hfirst, hrest⟩
      exact ⟨u, ⟨w, s1, s2, hread, hword, hfirst⟩, hrest⟩
    · rintro ⟨u, ⟨w, s1, s2, hread, hword, hfirst⟩, hrest⟩
      exact ⟨w, s1, s2, hread, hword, u, hfirst, hrest⟩

theorem walk_succ_of_more {w : Word} {s1 s2 : State} (hread : memRead site a s = .ok w s1)
    (hword : word w s1 = .ok false s2) : walk site word (n + 1) a s = walk site word n (a + 1) s2 := by
  simp only [walk, hread, hword, Result.bind_ok, Bool.false_eq_true, if_false]

/-- After a run of words the loop goes on from where they end. -/
theorem walk_of_passes (h : Passes site word m a s t) :
    walk site word (m + n) a s = walk site word n (a + BitVec.ofNat 16 m) t := by
  induction h with
  | zero a s => rw [Nat.zero_add]; exact congrArg (walk site word n · _) (BitVec.add_zero _).symm
  | succ hread hword _ ih => rw [Nat.add_right_comm, walk_succ_of_more hread hword, ih, add_one_add_ofNat]

/-! ### The words of PUTS and PUTSP -/

/-- The words with `more` send `bytes` and go on; no other goes on, and none waits for the host. -/
structure SendsWords (site : Site) (word : Word → State → Result Bool) (more : Word → Prop) (bytes : Word → List Byte) :
    Prop where
  sends : ∀ w s, more w → word w s = (consoleWriteAll site (bytes w) s).bind fun _ u => .ok false u
  ends : ∀ w s t, ¬ more w → word w s ≠ .ok false t
  not_stuck : ∀ w s f, word w s ≠ .stuck f
  sends_some : ∀ w, 1 ≤ (bytes w).length

theorem Result.bind_eq_stuck {α β : Type} {r : Result α} {k : α → State → Result β} {f : Fault} :
    r.bind k = .stuck f ↔ r = .stuck f ∨ ∃ v u, r = .ok v u ∧ k v u = .stuck f := by
  cases r <;> simp

theorem putsWord_of_zero (site : Site) (s : State) : putsWord site 0 s = .ok true s := by
  rw [putsWord, if_pos rfl]

theorem putsWord_of_ne_zero {w : Word} (hw : w ≠ 0) (site : Site) (s : State) :
    putsWord site w s = (consoleWriteAll site [loByte w] s).bind fun _ u => .ok false u := by
  rw [putsWord, if_neg hw, consoleWrite_eq_consoleWriteAll]

theorem putspWord_of_low_zero {w : Word} (hlo : loByte w = 0) (site : Site) (s : State) :
    putspWord site w s = .ok true s := by
  rw [putspWord, if_pos hlo]

theorem putspWord_of_high_zero {w : Word} (hlo : loByte w ≠ 0) (hhi : hiByte w = 0) (site : Site) (s : State) :
    putspWord site w s = (consoleWriteAll site [loByte w] s).bind fun _ u => .ok true u := by
  simp only [putspWord, if_neg hlo, if_pos hhi, consoleWrite_eq_consoleWriteAll]

theorem putspWord_of_ne_zero {w : Word} (hlo : loByte w ≠ 0) (hhi : hiByte w ≠ 0) (site : Site) (s : State) :
    putspWord site w s = (consoleWriteAll site [loByte w, hiByte w] s).bind fun _ u => .ok false u := by
  have hsplit := consoleWriteAll_append site [loByte w] [hiByte w] s
  rw [List.singleton_append] at hsplit
  simp only [putspWord, if_neg hlo, if_neg hhi, consoleWrite_eq_consoleWriteAll, hsplit]
  cases consoleWriteAll site [loByte w] s <;> rfl

theorem bind_consoleWriteAll_ne_stuck {bs : List Byte} {b : Bool} {f : Fault} :
    ((consoleWriteAll site bs s).bind fun _ u => .ok b u) ≠ .stuck f := by
  intro h
  obtain h | ⟨_, _, -, h⟩ := Result.bind_eq_stuck.mp h
  · exact consoleWriteAll_ne_stuck h
  · cases h

theorem bind_consoleWriteAll_ne_ok_false {bs : List Byte} :
    ((consoleWriteAll site bs s).bind fun _ u => .ok true u) ≠ .ok false t := by
  intro h
  obtain ⟨_, _, -, h⟩ := Result.bind_eq_ok.mp h
  cases h

theorem puts_sendsWords (site : Site) :
    SendsWords site (putsWord site) (· ≠ 0) (fun w => [loByte w]) where
  sends w s hw := putsWord_of_ne_zero hw site s
  ends w s t hw := by
    obtain rfl := not_not.mp hw
    rw [putsWord_of_zero]
    simp
  not_stuck w s f := by
    by_cases hw : w = 0
    · subst hw
      rw [putsWord_of_zero]
      simp
    · rw [putsWord_of_ne_zero hw]
      exact bind_consoleWriteAll_ne_stuck
  sends_some _ := le_refl 1

theorem putsp_sendsWords (site : Site) : SendsWords site (putspWord site) (fun w => loByte w ≠ 0 ∧ hiByte w ≠ 0)
    (fun w => [loByte w, hiByte w]) where
  sends w s hw := putspWord_of_ne_zero hw.1 hw.2 site s
  ends w s t hw := by
    by_cases hlo : loByte w = 0
    · rw [putspWord_of_low_zero hlo]
      simp
    · have hhi : hiByte w = 0 := not_not.mp fun hhi => hw ⟨hlo, hhi⟩
      rw [putspWord_of_high_zero hlo hhi]
      exact bind_consoleWriteAll_ne_ok_false
  not_stuck w s f := by
    by_cases hlo : loByte w = 0
    · rw [putspWord_of_low_zero hlo]
      simp
    · by_cases hhi : hiByte w = 0
      · rw [putspWord_of_high_zero hlo hhi]
        exact bind_consoleWriteAll_ne_stuck
      · rw [putspWord_of_ne_zero hlo hhi]
        exact bind_consoleWriteAll_ne_stuck
  sends_some _ := Nat.le_succ 1

variable {more : Word → Prop} {bytes : Word → List Byte} {w : Word}

/-- A word goes on exactly where it is one that does and the host accepts its bytes. -/
theorem SendsWords.eq_ok_false_iff (hw : SendsWords site word more bytes) : word w s = .ok false t ↔
    more w ∧ AcceptsWrites (bytes w).length s.console ∧ ∃ c, Sent (bytes w) s.console c ∧ t = setConsole c s := by
  by_cases hmore : more w
  · rw [hw.sends w s hmore, ← consoleWriteAll_eq_ok_iff (site := site) (v := ()), Result.bind_eq_ok]
    constructor
    · rintro ⟨_, u, hwrite, ⟨⟩⟩
      exact ⟨hmore, hwrite⟩
    · rintro ⟨-, hwrite⟩
      exact ⟨(), t, hwrite, rfl⟩
  · exact ⟨fun h => absurd h (hw.ends w s t hmore), fun h => absurd h.1 hmore⟩

/-- A loop that runs out of its bound has read only words that go on. -/
theorem SendsWords.passes_of_walk (hw : SendsWords site word more bytes)
    (h : walk site word n a s = .stuck .serviceNeverEnds) : ∃ t, Passes site word n a s t := by
  induction n generalizing a s with
  | zero => exact ⟨s, .zero a s⟩
  | succ n ih =>
    obtain hread | ⟨w, s1, hread, h⟩ := Result.bind_eq_stuck.mp h
    · cases (memRead_stuck hread).1
    · obtain hword | ⟨ended, s2, hword, h⟩ := Result.bind_eq_stuck.mp h
      · exact absurd hword (hw.not_stuck w s1 _)
      · cases ended with
        | true => cases h
        | false =>
          obtain ⟨t, hrest⟩ := ih h
          exact ⟨t, .succ hread hword hrest⟩

end Sys2Proof.Machine
end

section
/-! PROOFS. PUTS and PUTSP end as their loops do (spec 43_trap.md R213, R215, R219, decisions D7, D22, D23). -/

namespace Sys2Proof.Machine

variable {s t : State} {site : Site} {a : Word}

theorem thenDo_next_eq_asOutcome (r : Result Unit) : (r.thenDo fun _ u => .next u) = asOutcome r := by
  cases r <;> rfl

theorem exec_puts (s : State) : exec .puts s =
    asOutcome (walk (serviceSite 0x22 s) (putsWord (serviceSite 0x22 s)) (walkBound s) (readReg 0 s) s) :=
  thenDo_next_eq_asOutcome _

theorem exec_putsp (s : State) : exec .putsp s =
    asOutcome (walk (serviceSite 0x24 s) (putspWord (serviceSite 0x24 s)) (walkBound s) (readReg 0 s) s) :=
  thenDo_next_eq_asOutcome _

theorem walk_puts_ends (site : Site) (n : Nat) (a : Word) (s : State) :
    walk site (putsWord site) n a s = .stuck .serviceNeverEnds ∨
      PutsEnds site a s (walk site (putsWord site) n a s) := by
  induction n generalizing a s with
  | zero => exact .inl rfl
  | succ n ih =>
    rw [walk]
    cases hread : memRead site a s with
    | abort t => exact .inr (.readAborts hread)
    | stuck f => exact .inr (.readBlocks hread)
    | ok w s1 =>
      rw [Result.bind_ok, putsWord]
      by_cases hw : w = 0
      · subst hw
        exact .inr (.zeroWord hread)
      · rw [if_neg hw]
        cases hwrite : consoleWrite site (loByte w) s1 with
        | abort t => exact .inr (.writeAborts hread hw hwrite)
        | stuck f => exact absurd hwrite consoleWrite_ne_stuck
        | ok _ s2 => exact (ih (a + 1) s2).imp id (.goesOn hread hw hwrite)

theorem walk_putsp_ends (site : Site) (n : Nat) (a : Word) (s : State) :
    walk site (putspWord site) n a s = .stuck .serviceNeverEnds ∨
      PutspEnds site a s (walk site (putspWord site) n a s) := by
  induction n generalizing a s with
  | zero => exact .inl rfl
  | succ n ih =>
    rw [walk]
    cases hread : memRead site a s with
    | abort t => exact .inr (.readAborts hread)
    | stuck f => exact .inr (.readBlocks hread)
    | ok w s1 =>
      rw [Result.bind_ok, putspWord]
      by_cases hlo : loByte w = 0
      · rw [if_pos hlo]
        exact .inr (.zeroLow hread hlo)
      · rw [if_neg hlo]
        cases hlow : consoleWrite site (loByte w) s1 with
        | abort t => exact .inr (.lowAborts hread hlo hlow)
        | stuck f => exact absurd hlow consoleWrite_ne_stuck
        | ok _ s2 =>
          rw [Result.bind_ok]
          by_cases hhi : hiByte w = 0
          · rw [if_pos hhi]
            exact .inr (.zeroHigh hread hlo hlow hhi)
          · rw [if_neg hhi]
            cases hhigh : consoleWrite site (hiByte w) s2 with
            | abort t => exact .inr (.highAborts hread hlo hlow hhi hhigh)
            | stuck f => exact absurd hhigh consoleWrite_ne_stuck
            | ok _ s3 => exact (ih (a + 1) s3).imp id (.goesOn hread hlo hlow hhi hhigh)

end Sys2Proof.Machine

open Sys2Proof Sys2Proof.Machine

/-- Settles O41, by induction on the bound: each word read is one turn of the pseudocode's loop. -/
theorem putsEndsAsItsLoopDoes : Obligations.PutsEndsAsItsLoopDoes := by
  intro s
  rw [exec_puts]
  exact (walk_puts_ends (serviceSite 0x22 s) _ _ s).imp (fun h => by rw [h]; rfl) fun h => ⟨_, h, rfl⟩

/-- Settles O42, by induction on the bound: each word read is one turn of the pseudocode's loop. -/
theorem putspEndsAsItsLoopDoes : Obligations.PutspEndsAsItsLoopDoes := by
  intro s
  rw [exec_putsp]
  exact (walk_putsp_ends (serviceSite 0x24 s) _ _ s).imp (fun h => by rw [h]; rfl) fun h => ⟨_, h, rfl⟩

end

section
/-! PROOFS. PUTS and PUTSP on a string that ends (spec 43_trap.md R213, R215, decision D23): its bytes are sent in
order. -/

namespace Sys2Proof.Machine

variable {s : State} {site : Site} {a : Word} {word : Word → State → Result Bool} {more : Word → Prop}
  {bytes : Word → List Byte} {str : List Word}

/-- The words of str stand from a upward, none of them at KBSR_ADDR. -/
def StandsAt (str : List Word) (a : Word) (s : State) : Prop :=
  ∀ k, (h : k < str.length) → a + BitVec.ofNat 16 k ≠ Config.kbsrAddr ∧ rawWord (a + BitVec.ofNat 16 k) s = str[k]

theorem StandsAt.head {w : Word} (h : StandsAt (w :: str) a s) : a ≠ Config.kbsrAddr ∧ rawWord a s = w := by
  have hfirst := h 0 (Nat.succ_pos _)
  have hzero : a + BitVec.ofNat 16 0 = a := BitVec.add_zero a
  rwa [hzero] at hfirst

theorem StandsAt.tail {w : Word} (h : StandsAt (w :: str) a s) : StandsAt str (a + 1) s := by
  intro k hk
  rw [add_one_add_ofNat]
  exact h (k + 1) (Nat.succ_lt_succ hk)

/-- The loop passes a string of words that go on, and sends their bytes. -/
theorem SendsWords.passes_of_standsAt (hw : SendsWords site word more bytes) (hmore : ∀ w ∈ str, more w)
    (hstr : StandsAt str a s) (hroom : AcceptsWrites (str.flatMap bytes).length s.console) :
    ∃ c, Passes site word str.length a s (setConsole c s) ∧ Sent (str.flatMap bytes) s.console c := by
  induction str generalizing a s with
  | nil =>
    refine ⟨s.console, .zero a s, rfl, rfl, (List.append_nil _).symm, ?_⟩
    exact Option.map_id'.symm
  | cons w rest ih =>
    obtain ⟨hkbsr, hword⟩ := hstr.head
    rw [List.flatMap_cons, List.length_append] at hroom
    have hread : memRead site a s = .ok w s := hword ▸ memRead_plain hkbsr site s
    obtain ⟨c, -, hsent⟩ := consoleWriteAll_of_accepts (s := s) site (hroom.mono (Nat.le_add_right _ _))
    have hone : word w s = .ok false (setConsole c s) :=
      hw.eq_ok_false_iff.mpr ⟨hmore w List.mem_cons_self, hroom.mono (Nat.le_add_right _ _), c, hsent, rfl⟩
    obtain ⟨c', hrest, hsent'⟩ := ih (s := setConsole c s) (fun v hv => hmore v (List.mem_cons_of_mem w hv)) hstr.tail
      (hroom.after hsent)
    exact ⟨c', .succ hread hone hrest, hsent.trans hsent'⟩

/-- A string that does not run through KBSR_ADDR is shorter than the address space. -/
theorem lt_of_ne_kbsrAddr {n : Nat} (h : ∀ k ≤ n, a + BitVec.ofNat 16 k ≠ Config.kbsrAddr) : n < 65536 := by
  by_contra hn
  have hk := (Config.kbsrAddr - a).isLt
  refine h (Config.kbsrAddr - a).toNat (by omega) ?_
  rw [BitVec.ofNat_toNat, BitVec.setWidth_eq, BitVec.add_comm, BitVec.sub_add_cancel]

theorem le_walkBound (s : State) : 65536 ≤ walkBound s := by
  rw [walkBound]
  omega

/-- The loop on a string and the word that ends it. -/
theorem SendsWords.walk_of_standsAt (hw : SendsWords site word more bytes) (hmore : ∀ w ∈ str, more w)
    (hstr : StandsAt str a s) (hkbsr : a + BitVec.ofNat 16 str.length ≠ Config.kbsrAddr) {lastBytes : List Byte}
    (hlast : ∀ u, word (rawWord (a + BitVec.ofNat 16 str.length) s) u =
      (consoleWriteAll site lastBytes u).bind fun _ v => .ok true v)
    (hroom : AcceptsWrites ((str.flatMap bytes).length + lastBytes.length) s.console) :
    ∃ c, walk site word (walkBound s) a s = .ok () (setConsole c s) ∧
      Sent (str.flatMap bytes ++ lastBytes) s.console c := by
  have hlen : str.length < 65536 := lt_of_ne_kbsrAddr fun k hk =>
    (Nat.lt_or_eq_of_le hk).elim (fun hlt => (hstr k hlt).1) fun heq => heq ▸ hkbsr
  obtain ⟨n, hn⟩ := Nat.exists_eq_add_of_lt (hlen.trans_le (le_walkBound s))
  obtain ⟨c, hpasses, hsent⟩ := hw.passes_of_standsAt hmore hstr (hroom.mono (Nat.le_add_right _ _))
  obtain ⟨c', hwrite, hsent'⟩ := consoleWriteAll_of_accepts (s := setConsole c s) site (hroom.after hsent)
  refine ⟨c', ?_, hsent.trans hsent'⟩
  rw [hn, Nat.add_assoc, walk_of_passes hpasses, walk, memRead_plain hkbsr, Result.bind_ok, rawWord_setConsole, hlast,
    hwrite]
  rfl

/-! ### The bytes of a word (R11) -/

theorem loByte_eq_setWidth (w : Word) : loByte w = w.setWidth 8 := (BitVec.setWidth_eq_extractLsb' (by decide)).symm

theorem loByte_append (hi lo : Byte) : loByte (hi ++ lo : Word) = lo := BitVec.extractLsb'_append_eq_right

theorem hiByte_append (hi lo : Byte) : hiByte (hi ++ lo : Word) = hi := BitVec.extractLsb'_append_eq_left

theorem eq_append_of_toNat {w : Word} {hi lo : Byte} (h : w.toNat = hi.toNat * 256 + lo.toNat) : w = hi ++ lo :=
  BitVec.eq_of_toNat_eq (h.trans (toNat_append_bytes hi lo).symm)

/-- A pair of bytes as PUTSP's word, the low byte first (R215). -/
def packed (q : Byte × Byte) : Word := q.2 ++ q.1

theorem flatMap_packed (pairs : List (Byte × Byte)) :
    (pairs.map packed).flatMap (fun w => [loByte w, hiByte w]) = pairs.flatMap (fun q => [q.1, q.2]) := by
  rw [List.flatMap_map]
  congr 1
  funext q
  rw [packed, loByte_append, hiByte_append]

theorem length_flatMap_pair (pairs : List (Byte × Byte)) :
    (pairs.flatMap (fun q => [q.1, q.2])).length = 2 * pairs.length := by
  induction pairs with
  | nil => rfl
  | cons q rest ih =>
    rw [List.flatMap_cons, List.length_append, ih, List.length_cons (as := rest), Nat.mul_succ, Nat.add_comm]
    rfl

/-- The word that ends PUTSP's string: a zero byte, or one last byte and then a zero byte (D23). -/
theorem putspWord_of_last {last : Option Byte} {hiEnd : Byte} (h : ∀ b, last = some b → b ≠ 0 ∧ hiEnd = 0)
    (site : Site) (u : State) : putspWord site (hiEnd ++ last.getD 0) u =
      (consoleWriteAll site last.toList u).bind fun _ v => .ok true v := by
  cases last with
  | none =>
    have hlo : loByte (hiEnd ++ (none : Option Byte).getD 0) = 0 := loByte_append hiEnd 0
    rw [putspWord_of_low_zero hlo, Option.toList_none, consoleWriteAll_nil, Result.bind_ok]
  | some b =>
    obtain ⟨hb, hzero⟩ := h b rfl
    have hlo : loByte (hiEnd ++ (some b).getD 0) = b := loByte_append hiEnd b
    have hhi : hiByte (hiEnd ++ (some b).getD 0) = 0 := (hiByte_append hiEnd b).trans hzero
    rw [putspWord_of_high_zero (hlo.trans_ne hb) hhi, hlo]
    rfl

end Sys2Proof.Machine

open Sys2Proof Sys2Proof.Machine

/-- Settles O39: the loop passes the string's words and stops at the zero word. -/
theorem putsWritesTheStringAtR0 : Obligations.PutsWritesTheStringAtR0 := by
  intro s str hne hstr hkbsr hzero haccepts
  have hbytes : str.flatMap (fun w => [loByte w]) = str.map (·.setWidth 8) := by
    simp only [loByte_eq_setWidth]
    exact List.map_eq_flatMap.symm
  have hlast : ∀ u, putsWord (serviceSite 0x22 s) (rawWord (readReg 0 s + BitVec.ofNat 16 str.length) s) u =
      (consoleWriteAll (serviceSite 0x22 s) [] u).bind fun _ v => .ok true v := fun u => by
    rw [hzero, putsWord_of_zero, consoleWriteAll_nil, Result.bind_ok]
  have hroom : AcceptsWrites ((str.flatMap fun w => [loByte w]).length + ([] : List Byte).length) s.console := by
    rw [hbytes, List.length_map]
    exact haccepts
  obtain ⟨c, hwalk, hsent⟩ := (puts_sendsWords (serviceSite 0x22 s)).walk_of_standsAt hne hstr hkbsr hlast hroom
  rw [List.append_nil, hbytes] at hsent
  exact ⟨_, by rw [exec_puts, hwalk, asOutcome], hsent, sameData_setConsole c s, rfl, rfl⟩

/-- Settles O40: the loop passes the pairs' words and stops in the one that holds the zero byte. -/
theorem putspWritesThePackedStringAtR0 : Obligations.PutspWritesThePackedStringAtR0 := by
  intro s pairs last hiEnd hne hlastByte hpairs hkbsr hend haccepts
  have hmore : ∀ w ∈ pairs.map packed, loByte w ≠ 0 ∧ hiByte w ≠ 0 := by
    rintro _ hw
    obtain ⟨q, hq, rfl⟩ := List.mem_map.mp hw
    rw [packed, loByte_append, hiByte_append]
    exact hne q hq
  have hstr : StandsAt (pairs.map packed) (readReg 0 s) s := by
    intro k hk
    rw [List.length_map] at hk
    obtain ⟨hk1, hk2⟩ := hpairs k hk
    rw [List.getElem_map]
    exact ⟨hk1, eq_append_of_toNat hk2⟩
  rw [← List.length_map (f := packed)] at hkbsr hend
  have hlast : ∀ u, putspWord (serviceSite 0x24 s)
      (rawWord (readReg 0 s + BitVec.ofNat 16 (pairs.map packed).length) s) u =
      (consoleWriteAll (serviceSite 0x24 s) last.toList u).bind fun _ v => .ok true v := fun u => by
    rw [eq_append_of_toNat hend, putspWord_of_last hlastByte]
  have hroom : AcceptsWrites (((pairs.map packed).flatMap fun w => [loByte w, hiByte w]).length + last.toList.length)
      s.console := by
    rw [flatMap_packed, length_flatMap_pair]
    exact haccepts
  obtain ⟨c, hwalk, hsent⟩ := (putsp_sendsWords (serviceSite 0x24 s)).walk_of_standsAt hmore hstr hkbsr hlast hroom
  rw [flatMap_packed] at hsent
  exact ⟨_, by rw [exec_putsp, hwalk, asOutcome], hsent, sameData_setConsole c s, rfl, rfl⟩

end

section
/-! PROOFS. Endless strings (spec 43_trap.md R216, decision D22; log 19, 22): a loop that has read as many words as the
bound says has come into a state that its reads no longer change, with a word that goes on at every address. -/

namespace Sys2Proof.Machine

variable {s t u : State} {site : Site} {a : Word} {word : Word → State → Result Bool} {more : Word → Prop}
  {bytes : Word → List Byte} {m n : Nat}

/-- A run can be cut short. -/
theorem Passes.shorter (h : Passes site word n a s t) (hmn : m ≤ n) : ∃ u, Passes site word m a s u := by
  obtain ⟨k, rfl⟩ := Nat.exists_eq_add_of_le hmn
  obtain ⟨u, hfirst, -⟩ := passes_add_iff.mp h
  exact ⟨u, hfirst⟩

/-! ### A write that is due to fail -/

/-- Every word that goes on uses up a write. -/
theorem SendsWords.passes_le_of_failingWrite (hw : SendsWords site word more bytes) (h : Passes site word n a s t)
    {k : Nat} (hk : s.console.failingWrite = some k) : n ≤ k := by
  induction h generalizing k with
  | zero => exact Nat.zero_le k
  | @succ n a w s s1 s2 t hread hword _ ih =>
    obtain ⟨-, hroom, c, ⟨-, -, -, hfailing⟩, rfl⟩ := hw.eq_ok_false_iff.mp hword
    have hk1 : s1.console.failingWrite = some k := (memRead_io hread).2.2.trans hk
    have hlen := hroom k hk1
    have hpos := hw.sends_some w
    have hrest := ih (hfailing.trans (by rw [hk1, Option.map_some]))
    omega

/-! ### The events the host has listed -/

/-- A read leaves the list of events or takes its first one; at KBSR_ADDR it does take it. -/
theorem memRead_input {w : Word} (h : memRead site a s = .ok w t) :
    t.console.input.length ≤ s.console.input.length ∧
      (a = Config.kbsrAddr → t.console.input.length ≤ s.console.input.length - 1) := by
  obtain ⟨-, ⟨ha, rfl⟩ | ⟨-, e, s1, hr, hc⟩⟩ := memRead_ok h
  · exact ⟨le_refl _, fun heq => absurd heq ha⟩
  · have hinput : t.console.input = s1.console.input := by
      obtain ⟨c, -, rfl⟩ | ⟨-, rfl⟩ := hc <;> rfl
    obtain ⟨-, ⟨hlist, -⟩ | ⟨hlist, -, rfl⟩⟩ := consoleRead_ok hr
    · rw [hinput, hlist, List.length_cons]
      omega
    · rw [hinput, hlist]
      exact ⟨le_refl _, fun _ => le_refl _⟩

theorem SendsWords.input_eq (hw : SendsWords site word more bytes) {w : Word} (h : word w s = .ok false t) :
    t.console.input = s.console.input := by
  obtain ⟨-, -, c, ⟨hinput, -⟩, rfl⟩ := hw.eq_ok_false_iff.mp h
  exact hinput

theorem SendsWords.passes_input_le (hw : SendsWords site word more bytes) (h : Passes site word n a s t) :
    t.console.input.length ≤ s.console.input.length := by
  induction h with
  | zero => exact le_refl _
  | succ hread hword _ ih =>
    rw [hw.input_eq hword] at ih
    exact ih.trans (memRead_input hread).1

/-- A run of 65536 words reads KBSR_ADDR: the run up to it, that read and its word, and the rest. -/
theorem passes_round (h : Passes site word 65536 a s t) : ∃ m n w u u1 u2, Passes site word m a s u ∧
    memRead site Config.kbsrAddr u = .ok w u1 ∧ word w u1 = .ok false u2 ∧
    Passes site word n (Config.kbsrAddr + 1) u2 t := by
  have hlt := (Config.kbsrAddr - a).isLt
  obtain ⟨n, hn⟩ := Nat.exists_eq_add_of_lt hlt
  rw [Nat.add_assoc] at hn
  rw [show 65536 = 2 ^ 16 from rfl, hn] at h
  obtain ⟨u, hbefore, hafter⟩ := passes_add_iff.mp h
  have haddr : a + BitVec.ofNat 16 (Config.kbsrAddr - a).toNat = Config.kbsrAddr := by
    rw [BitVec.ofNat_toNat, BitVec.setWidth_eq, BitVec.add_comm, BitVec.sub_add_cancel]
  rw [haddr, passes_succ_iff] at hafter
  obtain ⟨w, u1, u2, hread, hword, hrest⟩ := hafter
  exact ⟨_, n, w, u, u1, u2, hbefore, hread, hword, hrest⟩

theorem SendsWords.round_input_le (hw : SendsWords site word more bytes) (h : Passes site word 65536 a s t) :
    t.console.input.length ≤ s.console.input.length - 1 := by
  obtain ⟨m, n, w, u, u1, u2, hbefore, hread, hword, hrest⟩ := passes_round h
  have h1 := hw.passes_input_le hbefore
  have h2 := (memRead_input hread).2 rfl
  have h3 := hw.passes_input_le hrest
  rw [hw.input_eq hword] at h3
  omega

theorem add_ofNat_rounds (a : Word) (m : Nat) : a + BitVec.ofNat 16 (65536 * m) = a := by
  have hzero : BitVec.ofNat 16 (65536 * m) = 0 := BitVec.eq_of_toNat_eq (Nat.mul_mod_right 65536 m)
  rw [hzero]
  exact BitVec.add_zero a

/-- As many rounds as there are listed events use them all up. -/
theorem SendsWords.rounds_input_le (hw : SendsWords site word more bytes) (h : Passes site word (65536 * m) a s t) :
    t.console.input.length ≤ s.console.input.length - m := by
  induction m generalizing t with
  | zero => exact hw.passes_input_le h
  | succ m ih =>
    obtain ⟨u, hfirst, hlast⟩ := passes_add_iff.mp h
    have h1 := ih hfirst
    have h2 := hw.round_input_le hlast
    omega

/-! ### A state that reads no longer change -/

/-- No event is listed, and the host's constant answer changes no word that is read: it is the end of input, or a
character that already stands in the keyboard's words. Every write is accepted. -/
structure Steady (s : State) : Prop where
  input : s.console.input = []
  accepts : s.console.failingWrite = none
  answer : s.console.tail = some .endOfInput ∨ ∃ c, s.console.tail = some (.byte c) ∧
    rawWord Config.kbsrAddr s ||| 0x8000 = rawWord Config.kbsrAddr s ∧ rawWord Config.kbdrAddr s = zext8 c

/-- What a state that is alike in the words and in what the host will do makes of Steady. -/
theorem Steady.of_alike (h : Steady s) (hmem : SameMem s t) (hinput : t.console.input = s.console.input)
    (htail : t.console.tail = s.console.tail) (hfailing : t.console.failingWrite = s.console.failingWrite) :
    Steady t := by
  refine ⟨hinput.trans h.input, hfailing.trans h.accepts, ?_⟩
  rw [htail, hmem, hmem]
  exact h.answer

/-- A read of KBSR_ADDR once no event is listed leaves a steady state. -/
theorem steady_of_memRead_kbsr {w : Word} (hinput : s.console.input = []) (haccepts : s.console.failingWrite = none)
    (h : memRead site Config.kbsrAddr s = .ok w t) : Steady t := by
  obtain ⟨-, ⟨hne, -⟩ | ⟨-, e, s1, hr, hc⟩⟩ := memRead_ok h
  · exact absurd rfl hne
  · obtain ⟨-, ⟨hlist, -⟩ | ⟨-, htail, rfl⟩⟩ := consoleRead_ok hr
    · rw [hinput] at hlist
      cases hlist
    · obtain ⟨c, rfl, rfl⟩ | ⟨rfl, rfl⟩ := hc
      · refine ⟨hinput, haccepts, .inr ⟨c, htail, ?_, rawWord_kbdr_keyboardTakes c s1⟩⟩
        rw [rawWord_kbsr_keyboardTakes, BitVec.or_assoc, BitVec.or_self]
      · exact ⟨hinput, haccepts, .inl htail⟩

/-- A read of a steady state goes on and changes no word. -/
theorem Steady.memRead (h : Steady s) (site : Site) (a : Word) :
    ∃ t, memRead site a s = .ok (rawWord a s) t ∧ SameMem s t ∧ Steady t := by
  by_cases ha : a = Config.kbsrAddr
  · subst ha
    obtain hend | ⟨c, hbyte, hkbsr, hkbdr⟩ := h.answer
    · exact ⟨_, memRead_of_endOfInput site (.inr ⟨h.input, hend, rfl⟩), fun _ => rfl, h⟩
    · have hmem : SameMem s (keyboardTakes c s) := by
        intro b
        rw [rawWord_keyboardTakes, hkbsr, ← hkbdr]
        split
        · next hb => rw [hb]
        · split
          · next hb => rw [hb]
          · rfl
      have hread := memRead_of_byte (s := s) site (.inr ⟨h.input, hbyte, rfl⟩)
      rw [hkbsr] at hread
      exact ⟨_, hread, hmem, h.of_alike hmem rfl rfl rfl⟩
  · exact ⟨s, memRead_plain ha site s, fun _ => rfl, h⟩

/-- A word that goes on changes no word and leaves a steady state steady. -/
theorem SendsWords.steady (hw : SendsWords site word more bytes) (h : Steady s) {w : Word}
    (hword : word w s = .ok false t) : SameMem s t ∧ Steady t := by
  obtain ⟨-, -, c, ⟨hinput, htail, -, hfailing⟩, rfl⟩ := hw.eq_ok_false_iff.mp hword
  exact ⟨fun _ => rfl, h.of_alike (fun _ => rfl) hinput htail (hfailing.trans (by rw [h.accepts, Option.map_none]))⟩

/-- In a steady state a run shows that every word it read goes on, and ends in a steady state with the same words. -/
theorem SendsWords.passes_steady (hw : SendsWords site word more bytes) (h : Passes site word n a s t)
    (hsteady : Steady s) : SameMem s t ∧ Steady t ∧ ∀ k < n, more (rawWord (a + BitVec.ofNat 16 k) s) := by
  induction h with
  | zero => exact ⟨fun _ => rfl, hsteady, fun k hk => absurd hk (Nat.not_lt_zero k)⟩
  | @succ n a w s s1 s2 t hread hword _ ih =>
    obtain ⟨s1', hread', hmem1, hsteady1⟩ := hsteady.memRead site a
    rw [hread] at hread'
    cases hread'
    obtain ⟨hmem2, hsteady2⟩ := hw.steady hsteady1 hword
    obtain ⟨hmem3, hsteady3, hmore⟩ := ih hsteady2
    refine ⟨fun b => (hmem3 b).trans ((hmem2 b).trans (hmem1 b)), hsteady3, fun k hk => ?_⟩
    cases k with
    | zero =>
      have hfirst : a + BitVec.ofNat 16 0 = a := BitVec.add_zero a
      rw [hfirst]
      exact (hw.eq_ok_false_iff.mp hword).1
    | succ k =>
      have hrest := hmore k (Nat.lt_of_succ_lt_succ hk)
      rwa [add_one_add_ofNat, hmem2, hmem1] at hrest

/-- In a steady state in which every word goes on, there is no end. -/
theorem SendsWords.passes_of_steady (hw : SendsWords site word more bytes) (hsteady : Steady s)
    (hmore : ∀ b, more (rawWord b s)) (n : Nat) (a : Word) : ∃ t, Passes site word n a s t := by
  induction n generalizing a s with
  | zero => exact ⟨s, .zero a s⟩
  | succ n ih =>
    obtain ⟨s1, hread, hmem1, hsteady1⟩ := hsteady.memRead site a
    have haccepts : AcceptsWrites (bytes (rawWord a s)).length s1.console := fun k hk => by
      rw [hsteady1.accepts] at hk
      cases hk
    obtain ⟨c, -, hsent⟩ := consoleWriteAll_of_accepts site haccepts
    have hword : word (rawWord a s) s1 = .ok false (setConsole c s1) :=
      hw.eq_ok_false_iff.mpr ⟨hmore a, haccepts, c, hsent, rfl⟩
    obtain ⟨hmem2, hsteady2⟩ := hw.steady hsteady1 hword
    obtain ⟨t, hrest⟩ := ih hsteady2 (fun b => by rw [hmem2, hmem1]; exact hmore b) (a + 1)
    exact ⟨t, .succ hread hword hrest⟩

/-! ### The bound -/

theorem SendsWords.failingWrite_none (hw : SendsWords site word more bytes) (h : Passes site word n a s t)
    (hnone : s.console.failingWrite = none) : t.console.failingWrite = none := by
  induction h with
  | zero => exact hnone
  | succ hread hword _ ih =>
    obtain ⟨-, -, c, ⟨-, -, -, hfailing⟩, rfl⟩ := hw.eq_ok_false_iff.mp hword
    exact ih (by rw [setConsole_console, hfailing, (memRead_io hread).2.2, hnone, Option.map_none])

/-- Two rounds without a listed event: the first reaches a steady state, the second reads every word of it. -/
theorem SendsWords.endless_of_two_rounds (hw : SendsWords site word more bytes) (hinput : s.console.input = [])
    (haccepts : s.console.failingWrite = none) (h1 : Passes site word 65536 a s t) (h2 : Passes site word 65536 a t u)
    (n : Nat) : ∃ v, Passes site word n a t v := by
  obtain ⟨_, _, w, v, v1, v2, hbefore, hread, hword, hrest⟩ := passes_round h1
  have hempty : v.console.input = [] := by
    have hle := hw.passes_input_le hbefore
    rw [hinput, List.length_nil] at hle
    exact List.length_eq_zero_iff.mp (Nat.le_zero.mp hle)
  have hsteady1 := steady_of_memRead_kbsr hempty (hw.failingWrite_none hbefore haccepts) hread
  obtain ⟨-, hsteady2⟩ := hw.steady hsteady1 hword
  obtain ⟨-, hsteady, -⟩ := hw.passes_steady hrest hsteady2
  obtain ⟨-, -, hmore⟩ := hw.passes_steady h2 hsteady
  refine hw.passes_of_steady hsteady (fun b => ?_) n a
  have hb := hmore (b - a).toNat (b - a).isLt
  rwa [BitVec.ofNat_toNat, BitVec.setWidth_eq, BitVec.add_comm, BitVec.sub_add_cancel] at hb

/-- A loop that passes as many words as the bound says passes any number of words. -/
theorem SendsWords.endless (hw : SendsWords site word more bytes) (h : Passes site word (walkBound s) a s t) (n : Nat) :
    ∃ u, Passes site word n a s u := by
  cases hf : s.console.failingWrite with
  | some k =>
    have hle := hw.passes_le_of_failingWrite h hf
    rw [walkBound, hf] at hle
    dsimp only at hle
    omega
  | none =>
    have hbound : walkBound s = 65536 * s.console.input.length + (65536 + 65536) := by
      rw [walkBound, hf]
      dsimp only
      omega
    rw [hbound] at h
    obtain ⟨v, hevents, hrounds⟩ := passes_add_iff.mp h
    rw [add_ofNat_rounds] at hrounds
    obtain ⟨w, hfirst, hsecond⟩ := passes_add_iff.mp hrounds
    have hback : a + BitVec.ofNat 16 65536 = a := add_ofNat_rounds a 1
    rw [hback] at hsecond
    have hempty : v.console.input = [] := by
      have hle := hw.rounds_input_le hevents
      rw [Nat.sub_self] at hle
      exact List.length_eq_zero_iff.mp (Nat.le_zero.mp hle)
    obtain ⟨x, hrest⟩ := hw.endless_of_two_rounds hempty (hw.failingWrite_none hevents hf) hfirst hsecond n
    have hall : Passes site word (65536 * s.console.input.length + (65536 + n)) a s x := by
      refine passes_add_iff.mpr ⟨v, hevents, ?_⟩
      rw [add_ofNat_rounds]
      refine passes_add_iff.mpr ⟨w, hfirst, ?_⟩
      rwa [hback]
    exact hall.shorter (by omega)

/-! ### The pseudocode's loops end -/

theorem not_passes_one_of_read (h : ∀ w s1, memRead site a s ≠ .ok w s1) (t : State) : ¬ Passes site word 1 a s t := by
  rw [← Nat.zero_add 1, passes_succ_iff]
  rintro ⟨w, s1, s2, hread, -⟩
  exact h w s1 hread

theorem not_passes_one_of_word {w : Word} {s1 : State} (hread : memRead site a s = .ok w s1)
    (h : ∀ s2, word w s1 ≠ .ok false s2) (t : State) : ¬ Passes site word 1 a s t := by
  rw [← Nat.zero_add 1, passes_succ_iff]
  rintro ⟨w', s1', s2, hread', hword, -⟩
  rw [hread] at hread'
  cases hread'
  exact h s2 hword

theorem not_passes_succ {w : Word} {s1 s2 : State} (hread : memRead site a s = .ok w s1)
    (hword : word w s1 = .ok false s2) (h : ∀ t, ¬ Passes site word n (a + 1) s2 t) (t : State) :
    ¬ Passes site word (n + 1) a s t := by
  rw [passes_succ_iff]
  rintro ⟨w', s1', s2', hread', hword', hrest⟩
  rw [hread] at hread'
  cases hread'
  rw [hword] at hword'
  cases hword'
  exact h t hrest

theorem putsEnds_bounds {r : Result Unit} (h : PutsEnds site a s r) :
    ∃ n, ∀ t, ¬ Passes site (putsWord site) n a s t := by
  induction h with
  | zeroWord hread => exact ⟨1, not_passes_one_of_word hread fun s2 h => by rw [putsWord_of_zero] at h; cases h⟩
  | readAborts hread => exact ⟨1, not_passes_one_of_read fun w s1 h => by rw [hread] at h; cases h⟩
  | readBlocks hread => exact ⟨1, not_passes_one_of_read fun w s1 h => by rw [hread] at h; cases h⟩
  | writeAborts hread hw hwrite =>
    exact ⟨1, not_passes_one_of_word hread fun s2 h => by
      rw [putsWord, if_neg hw, hwrite] at h; cases h⟩
  | goesOn hread hw hwrite _ ih =>
    obtain ⟨n, hn⟩ := ih
    exact ⟨n + 1, not_passes_succ hread (by rw [putsWord, if_neg hw, hwrite]; rfl) hn⟩

theorem putspEnds_bounds {r : Result Unit} (h : PutspEnds site a s r) :
    ∃ n, ∀ t, ¬ Passes site (putspWord site) n a s t := by
  induction h with
  | zeroLow hread hlo => exact ⟨1, not_passes_one_of_word hread fun s2 h => by
      rw [putspWord_of_low_zero hlo] at h; cases h⟩
  | readAborts hread => exact ⟨1, not_passes_one_of_read fun w s1 h => by rw [hread] at h; cases h⟩
  | readBlocks hread => exact ⟨1, not_passes_one_of_read fun w s1 h => by rw [hread] at h; cases h⟩
  | lowAborts hread hlo hlow =>
    exact ⟨1, not_passes_one_of_word hread fun s2 h => by
      rw [putspWord, if_neg hlo, hlow] at h; cases h⟩
  | zeroHigh hread hlo hlow hhi =>
    exact ⟨1, not_passes_one_of_word hread fun s2 h => by
      rw [putspWord, if_neg hlo, hlow, Result.bind_ok, if_pos hhi] at h; cases h⟩
  | highAborts hread hlo hlow hhi hhigh =>
    exact ⟨1, not_passes_one_of_word hread fun s2 h => by
      rw [putspWord, if_neg hlo, hlow, Result.bind_ok, if_neg hhi, hhigh] at h; cases h⟩
  | goesOn hread hlo hlow hhi hhigh _ ih =>
    obtain ⟨n, hn⟩ := ih
    exact ⟨n + 1, not_passes_succ hread (by
      rw [putspWord, if_neg hlo, hlow, Result.bind_ok, if_neg hhi, hhigh]; rfl) hn⟩

theorem eq_neverEnds_of_asOutcome {r : Result Unit} (h : asOutcome r = .fault .serviceNeverEnds) :
    r = .stuck .serviceNeverEnds := by
  cases r <;> cases h
  rfl

/-- A loop called endless passes any number of words. -/
theorem SendsWords.endless_of_walk (hw : SendsWords site word more bytes)
    (h : asOutcome (walk site word (walkBound s) a s) = .fault .serviceNeverEnds) (n : Nat) :
    ∃ t, Passes site word n a s t := by
  obtain ⟨t, hpasses⟩ := hw.passes_of_walk (eq_neverEnds_of_asOutcome h)
  exact hw.endless hpasses n

end Sys2Proof.Machine

open Sys2Proof Sys2Proof.Machine

/-- Settles O43: a loop that ends passes fewer words than some number, and one called endless passes any number. -/
theorem stringServiceCalledEndlessNeverEnds : Obligations.StringServiceCalledEndlessNeverEnds := by
  intro s
  refine ⟨fun hexec => ?puts, fun hexec => ?putsp⟩
  case puts =>
    rintro ⟨r, hends⟩
    obtain ⟨n, hn⟩ := putsEnds_bounds hends
    obtain ⟨t, ht⟩ := (puts_sendsWords (serviceSite 0x22 s)).endless_of_walk (exec_puts s ▸ hexec) n
    exact hn t ht
  case putsp =>
    rintro ⟨r, hends⟩
    obtain ⟨n, hn⟩ := putspEnds_bounds hends
    obtain ⟨t, ht⟩ := (putsp_sendsWords (serviceSite 0x24 s)).endless_of_walk (exec_putsp s ▸ hexec) n
    exact hn t ht

end
